-- ==== Sys2Proof/Word.lean ====
section
/-! DEFINITION. The word types of ECB (00_scope.md R14): all numbers unsigned, bit 0 least significant. -/

namespace Sys2Proof

/-- A byte: 8 bits, bit 0 of weight 1, bit 7 of weight 128 (R14). -/
abbrev Byte := BitVec 8

/-- A register value on the 32-bit response port (10_state.md R47). -/
abbrev Word := BitVec 32

/-- A command word `cmd[9:0]` (30_encoding.md R80). -/
abbrev CmdWord := BitVec 10

/-- The failure mask of the battery, one bit for each sub-test (10_state.md R42). -/
abbrev Mask := BitVec 5

/-- A block or a pool image as it crosses a port: byte 0 first (20_memory.md R62). -/
abbrev Block := List Byte

end Sys2Proof
end

