-- ==== Sys2Proof/Config.lean ====
section
/-! DEFINITION. The parameters of an ECB instance (00_scope.md R6 to R10, R13) and the free values, which nothing
in Lean can evaluate. -/

namespace Sys2Proof

/-- The FIPS bounds record FB (R10, 41_fips_validator.md R131). All bounds are inclusive. Entry k of `runMin` and
`runMax` is `RUN_MIN[k+1]` and `RUN_MAX[k+1]`. -/
structure Bounds where
  monoMin : Nat
  monoMax : Nat
  pokerMin : Nat
  pokerMax : Nat
  runMin : Vector Nat 6
  runMax : Vector Nat 6
  longrunMax : Nat
deriving DecidableEq, Repr

/-- The implementation parameters of an instance (R6 to R8, R10). HASH and CIPHER are below. -/
structure Params where
  /-- `B`, the EntropyBuffer capacity in bytes (R6). -/
  B : Nat
  /-- `L`, the DiscardPool ring length in bytes (R7). -/
  L : Nat
  /-- `DLEN`, the digest length and key length in bytes (R8). -/
  DLEN : Nat
  /-- `CLEN`, the ciphertext length in bytes (R8). -/
  CLEN : Nat
  /-- `FB`, the bounds of the battery (R10). -/
  FB : Bounds
deriving DecidableEq, Repr

/-- R6 to R8: B, L, DLEN and CLEN are at least 1. FB is any record (93_implementation_defined.md U11). -/
def Params.valid (p : Params) : Bool :=
  decide (1 ≤ p.B) && decide (1 ≤ p.L) && decide (1 ≤ p.DLEN) && decide (1 ≤ p.CLEN)

/-- CLEN - 1: the spec gives CLEN no default but CLEN ≥ 1 (R8). Log 3. -/
opaque Config.clenPred : Nat

/-- Byte `i` of the digest, of length `dlen`, that the external hash gives for a pool image (R9). Log 4. -/
opaque Config.digestByte : (pool : Block) → (dlen i : Nat) → Byte

/-- Byte `i` of the ciphertext, of length `clen`, that the external cipher gives for a key and a block (R9). Log 4. -/
opaque Config.cipherByte : (key blk : Block) → (clen i : Nat) → Byte

/-- What a strap that was not stable at the sampling edge latches, for each draw (70_reset_and_hazards.md R257,
93_implementation_defined.md U10). Log 13. -/
opaque Config.freeStrap : Nat → Bool

/-- What ECUR or PCUR reads when the cursor position does not fit in 32 bits; the spec states no result there. Log 16. -/
opaque Config.wideCursor : Nat → Word

/-- The bounds of R10 for B = 2500, which the spec marks as general knowledge. Log 5. -/
def Bounds.std : Bounds where
  monoMin := 9726
  monoMax := 10274
  pokerMin := 1563176
  pokerMax := 1576928
  runMin := #v[2315, 1114, 527, 240, 103, 103]
  runMax := #v[2685, 1386, 723, 384, 209, 209]
  longrunMax := 25

/-- `CFG_STD` (R13) with the open CLEN: the parameters of this hardware. -/
def Params.std : Params where
  B := 2500
  L := 64
  DLEN := 64
  CLEN := Config.clenPred + 1
  FB := Bounds.std

/-- The bounds of `CFG_OPEN` (R13): the first four sub-tests cannot fail. -/
def Bounds.open (B : Nat) : Bounds where
  monoMin := 0
  monoMax := 8 * B
  pokerMin := 0
  pokerMax := (2 * B) ^ 2
  runMin := Vector.replicate 6 0
  runMax := Vector.replicate 6 (8 * B)
  longrunMax := 8 * B

/-- `CFG_OPEN(B, L)` (R13), with the collaborators' lengths given. -/
def Params.openCfg (B L dlen clen : Nat) : Params where
  B := B
  L := L
  DLEN := dlen
  CLEN := clen
  FB := Bounds.open B

end Sys2Proof
end

