-- ==== Sys2Proof/Syntax.lean ====
section
/-! DEFINITION. The operations of ECB, one constructor for each row of spec/opcode_table.json: the four commands of the
command port (30_encoding.md R82) and the fifteen internal operations, which have no encoding (R83, log 9). -/

namespace Sys2Proof

/-- An operation with its operands. The operand of a sub-test, of FIPS and of the encoder is a block of B bytes. -/
inductive Instr where
  /-- NOP, `arg` ignored (43_command_status.md R190). -/
  | nop (arg : Byte)
  /-- PUSH of one raw sample byte (40_extractor.md R100). -/
  | push (b : Byte)
  /-- RD of a register address (R191). -/
  | rd (a : Byte)
  /-- The reserved opcode 11, `arg` ignored (R192). -/
  | reserved (arg : Byte)
  /-- PAIR: one Von Neumann decision (R102). -/
  | pair (b0 b1 : Bool)
  /-- ACCEPT: one accepted bit into the EntropyBuffer (R103). -/
  | accept (bit : Bool)
  /-- DISCARD: one discarded bit into the DiscardPool (R104). -/
  | discard (bit : Bool)
  /-- BLOCK_CYCLE: validate, encode or discard, clear (42_output_encoder.md R160). -/
  | blockCycle
  /-- FIPS: the battery over one block (41_fips_validator.md R130). -/
  | fips (blk : Block)
  /-- MONOBIT, mask bit 0 (R133). -/
  | monobit (blk : Block)
  /-- POKER, mask bit 1 (R134). -/
  | poker (blk : Block)
  /-- RUNS, mask bit 2 (R135). -/
  | runs (blk : Block)
  /-- LONGRUN, mask bit 3 (R136). -/
  | longrun (blk : Block)
  /-- CONTRUN, mask bit 4, the only stateful sub-test (R137). -/
  | contrun (blk : Block)
  /-- ENCODE: dispatch on the mode (R162). -/
  | encode (blk : Block)
  /-- WHITEN: XOR with the previous passing block (R163). -/
  | whiten (blk : Block)
  /-- ENCRYPT: encrypt under the pool's key, or apply the unprimed policy (R165). -/
  | encrypt (blk : Block)
  /-- KEYDERIVE: hash the whole pool (R166). -/
  | keyDerive
  /-- UNPRIMED: the strapped policy before the pool is primed (R167). -/
  | unprimed (blk : Block)
deriving DecidableEq, Repr

/-- Whether the operation is a command of the command port (R82), not an internal one (R83). -/
def Instr.isCommand : Instr → Bool
  | .nop _ | .push _ | .rd _ | .reserved _ => true
  | .pair _ _ | .accept _ | .discard _ | .blockCycle | .fips _ | .monobit _ | .poker _ | .runs _ | .longrun _
  | .contrun _ | .encode _ | .whiten _ | .encrypt _ | .keyDerive | .unprimed _ => false

/-- The operand block, for the operations that take one. -/
def Instr.block? : Instr → Option Block
  | .fips blk | .monobit blk | .poker blk | .runs blk | .longrun blk | .contrun blk
  | .encode blk | .whiten blk | .encrypt blk | .unprimed blk => some blk
  | .nop _ | .push _ | .rd _ | .reserved _ | .pair _ _ | .accept _ | .discard _ | .blockCycle | .keyDerive => none

end Sys2Proof
end

