-- ==== Sys2Proof/WellFormed.lean ====
section
/-! DEFINITION. Well-formed operations: a block operand is a Byte^B (41_fips_validator.md R130, 42_output_encoder.md R162).
Every other operand is of the right width by its type. -/

namespace Sys2Proof

/-- The operation is well-formed for an instance with parameters `p`. -/
def Instr.wf (p : Params) (i : Instr) : Bool :=
  match i.block? with
  | some blk => blk.length == p.B
  | none => true

end Sys2Proof
end

