-- ==== Sys2Proof/Decode.lean ====
section
/-! DEFINITION. The decoder of the command port, the opcode map as a table of rows, and the encoder
(30_encoding.md R80 to R84). -/

namespace Sys2Proof

/-- Bits 9:8 of a command word: the opcode (R80). -/
def opField (w : CmdWord) : BitVec 2 := w.extractLsb' 8 2

/-- Bits 7:0 of a command word: the operand, used as it stands (R80, R81). -/
def argField (w : CmdWord) : Byte := w.extractLsb' 0 8

/-- R82, R84: `op` alone selects the row; the decoder is total. -/
def decode (w : CmdWord) : Instr :=
  match (opField w).toNat with
  | 0 => .nop (argField w)
  | 1 => .push (argField w)
  | 2 => .rd (argField w)
  | _ => .reserved (argField w)

/-- Why a number is not a command word. -/
inductive DecodeError where
  /-- It has a bit at or above bit 10; a command word has 10 bits (R80). -/
  | wordTooWide
deriving DecidableEq, Repr

/-- Decode a number given for a command word; numbers that are no 10-bit word are rejected by name. -/
def decodeNat (w : Nat) : Except DecodeError Instr :=
  if w < 1024 then .ok (decode (BitVec.ofNat 10 w)) else .error .wordTooWide

/-- The instruction the decoder reads from a word numbered as spec/opcode_table.json numbers it: the table's bit k is
`cmd[k]`. The port has no bit 10 or above (log 20). -/
def decodeTableWord (_nbits w : Nat) : Option Instr :=
  match decodeNat w with
  | .ok i => some i
  | .error _ => none

/-- `{op, arg}` (R14, R80). -/
def commandWord (op : BitVec 2) (arg : Byte) : CmdWord := op ++ arg

/-- The command word of an operation; the internal operations have none (R82, R83). -/
def encode : Instr → Option CmdWord
  | .nop arg => some (commandWord 0b00#2 arg)
  | .push b => some (commandWord 0b01#2 b)
  | .rd a => some (commandWord 0b10#2 a)
  | .reserved arg => some (commandWord 0b11#2 arg)
  | .pair _ _ | .accept _ | .discard _ | .blockCycle | .fips _ | .monobit _ | .poker _ | .runs _ | .longrun _
  | .contrun _ | .encode _ | .whiten _ | .encrypt _ | .keyDerive | .unprimed _ => none

/-- The rows of R82: mnemonic, match and mask over `cmd[9:0]`. -/
def opcodeRows : List (String × CmdWord × CmdWord) :=
  [("NOP", 0x000#10, 0x300#10), ("PUSH", 0x100#10, 0x300#10), ("RD", 0x200#10, 0x300#10), ("RESERVED", 0x300#10, 0x300#10)]

/-- The mnemonic of an operation in spec/opcode_table.json. -/
def Instr.mnemonic : Instr → String
  | .nop _ => "NOP"
  | .push _ => "PUSH"
  | .rd _ => "RD"
  | .reserved _ => "RESERVED"
  | .pair _ _ => "PAIR"
  | .accept _ => "ACCEPT"
  | .discard _ => "DISCARD"
  | .blockCycle => "BLOCK_CYCLE"
  | .fips _ => "FIPS"
  | .monobit _ => "MONOBIT"
  | .poker _ => "POKER"
  | .runs _ => "RUNS"
  | .longrun _ => "LONGRUN"
  | .contrun _ => "CONTRUN"
  | .encode _ => "ENCODE"
  | .whiten _ => "WHITEN"
  | .encrypt _ => "ENCRYPT"
  | .keyDerive => "KEYDERIVE"
  | .unprimed _ => "UNPRIMED"

/-- Whether a word lies in a row of the opcode map. -/
def rowMatches (w : CmdWord) (row : String × CmdWord × CmdWord) : Bool := (w &&& row.2.2) == row.2.1

end Sys2Proof
end

