-- ==== Sys2Proof/Machine/State.lean ====
section
/-! DEFINITION. The state of ECB (10_state.md R20), the outputs of its steps (R48), the host's pending inputs
(70_reset_and_hazards.md R246), the reasons a step can stop, and the state after reset (R50). -/

namespace Sys2Proof.Machine

/-- A byte memory: (address, byte) pairs, addresses strictly rising, no byte 0x00. An unlisted address reads as
`Memory.unlisted`. -/
abbrev Memory := List Host.Cell

/-- What an unlisted address reads as: the reset contents of `ebuf`, `pool` and `prev` (R50). Log 19. -/
def Memory.unlisted : Byte := 0x00#8

/-- A pair of numbers, one for each bit value: `fc_len[0..1]`, `fc_pos[0..1]`, `ext.len`, `ext.pos`. -/
structure PerBit where
  zero : Nat
  one : Nat
deriving DecidableEq, Repr

/-- Element `v` of the pair. -/
def PerBit.get (p : PerBit) (v : Bool) : Nat := if v then p.one else p.zero

/-- A run `(v, start, len)` of the flat bit sequence (41_fips_validator.md R135). -/
structure Run where
  v : Bool
  start : Nat
  len : Nat
deriving DecidableEq, Repr

/-- The run extremes of a block (R137). -/
structure Extremes where
  len : PerBit
  pos : PerBit
deriving DecidableEq, Repr

/-- The three events (60_exceptions.md R211). -/
inductive Event where
  /-- The battery's mask is not 0. -/
  | fipsFail (mask : Mask)
  /-- A block passed in encrypted mode while `primed` = 0. -/
  | keyNotReady
  /-- A command with `op` = 11. -/
  | badCommand
deriving DecidableEq, Repr

/-- The response of a command: `rsp_data`, `rsp_err` (30_encoding.md R88). -/
structure Response where
  data : Word
  err : Bool
deriving DecidableEq, Repr

/-- What one call presents to the external cipher: the key bytes and the plaintext bytes (20_memory.md R71). -/
structure CipherCall where
  key : Block
  pt : Block
deriving DecidableEq, Repr

/-- What a run lets the outside observe (70_reset_and_hazards.md R245), each list oldest first, and the event log of
60_exceptions.md R212. It is output, not state of ECB (R48); no rule reads it. Log 8. -/
structure Trace where
  /-- One response for each command of the run (R88). -/
  rsps : List Response
  /-- The output stream: the concatenation of every `emit` since reset (R70). -/
  out : List Byte
  /-- The bytes presented to HASH, one entry a call (R71). -/
  hashCalls : List Block
  /-- The bytes presented to CIPHER, one entry a call (R71). -/
  cipherCalls : List CipherCall
  /-- The events raised (R212). -/
  events : List Event
deriving DecidableEq, Repr

/-- The trace of a run that has just been reset. -/
def Trace.empty : Trace := ⟨[], [], [], [], []⟩

/-- A strap pin at the sampling edge (R242, R257). -/
inductive Strap where
  | low
  | high
  /-- Not stable at the edge: the value latched is unspecified (R257). -/
  | unstable
deriving DecidableEq, Repr

/-- How far a transaction had come when `rst` cut it (30_encoding.md R89, 93_implementation_defined.md U14): the exchanges of a
transaction follow each other in the order of the pseudocode (70_reset_and_hazards.md R260; 42_output_encoder.md R165), so a
later one has begun only when the earlier ones are complete. Log 12. -/
inductive Cut where
  /-- `n` bytes of the pool have been handed to the hash, nothing later has happened. -/
  | hashing (n : Nat)
  /-- The hash has answered; `key` key bytes and `pt` plaintext bytes, on two ports, have been handed to the cipher. -/
  | ciphering (key pt : Nat)
  /-- The cipher has answered and the events are raised; `n` output bytes have been handed over. -/
  | emitting (n : Nat)
deriving DecidableEq, Repr

/-- What the host can do to ECB (R246). -/
inductive HostInput where
  /-- Present a command word; the transaction runs to its end. -/
  | cmd (w : CmdWord)
  /-- Pulse `rst` between transactions, with the straps as given (R240). -/
  | rst (enc pol : Strap)
  /-- Present a command word and pulse `rst` before its transaction ends (R240, U14). -/
  | rstDuring (w : CmdWord) (cut : Cut) (enc pol : Strap)
deriving DecidableEq, Repr

/-- The value an internal operation returned to its caller, for an internal operation that is run by itself. Log 9. -/
inductive Ret where
  | nothing
  /-- The failure bit of a sub-test. -/
  | failed (m : Bool)
  /-- The mask of FIPS. -/
  | mask (m : Mask)
  /-- The key of KEYDERIVE. -/
  | key (k : Block)
deriving DecidableEq, Repr

/-- The state: the tuple of R20, then the model's own fields. -/
structure State where
  /-- The instance's parameters (00_scope.md R6 to R10). No step writes them. Log 1. -/
  par : Params
  /-- EntropyBuffer, B bytes (R21). -/
  ebuf : Memory
  /-- EntropyBuffer cursor, byte index (R22). -/
  eByte : Nat
  /-- EntropyBuffer cursor, bit index (R22). -/
  eBit : Fin 8
  /-- DiscardPool, L bytes (R24). -/
  pool : Memory
  /-- DiscardPool cursor, byte index (R25). -/
  pByte : Nat
  /-- DiscardPool cursor, bit index (R25). -/
  pBit : Fin 8
  /-- The pool has been filled once (R26). -/
  primed : Bool
  /-- PreviousBlock, B bytes (R27). -/
  prev : Memory
  /-- `prev` holds a passing block (R28). -/
  prevValid : Bool
  /-- The validator has run since reset (R29). -/
  fcValid : Bool
  /-- `fc_len[0..1]` (R29). -/
  fcLen : PerBit
  /-- `fc_pos[0..1]` (R29). -/
  fcPos : PerBit
  /-- Mode strap, latched at reset: false whitening, true encrypted (R40). -/
  cfgEncrypt : Bool
  /-- Unprimed policy strap, latched at reset: false DROP, true PASS (R40). -/
  cfgPolicy : Bool
  /-- A block cycle has run since reset (R42). -/
  lastValid : Bool
  /-- The mask of the most recent block cycle (R42). -/
  lastMask : Mask
  /-- The OR of every mask since reset (R43). -/
  accMask : Mask
  /-- A reserved opcode has been seen (R46). -/
  errCmd : Bool
  /-- Block cycles run (R44). -/
  cntBlocks : Word
  /-- Block cycles whose mask was not 0 (R44). -/
  cntFail : Word
  /-- Blocks emitted (R44). -/
  cntEmit : Word
  /-- Blocks that passed in encrypted mode while `primed` = 0 (R44). -/
  cntUnprimed : Word
  /-- MODEL'S OWN: the outputs of the run since the last reset (R48, R245). Log 8. -/
  trace : Trace
  /-- MODEL'S OWN: the outputs of the runs that a reset ended, oldest first. Log 8. -/
  past : List Trace
  /-- MODEL'S OWN: the host inputs not yet taken, the next first (R246). Log 7. -/
  pending : List HostInput
  /-- MODEL'S OWN: the machine has been reset since power-on (R244). Log 14. -/
  resetDone : Bool
  /-- MODEL'S OWN: how many free strap values have been drawn. Log 13. -/
  draws : Nat
  /-- MODEL'S OWN: the value the last internal operation run by itself returned. Log 9. -/
  ret : Ret
deriving DecidableEq, Repr

/-- Why the machine stops. The spec has no fatal condition (60_exceptions.md R227); both reasons stand for states in
which a rule's precondition fails, and no run reaches one (Safety.lean). -/
inductive Fault where
  /-- ACCEPT in a state with `e_byte` ≥ B, whose precondition (40_extractor.md R103) fails. Safe. Log 11. -/
  | ebufCursor
  /-- DISCARD in a state with `p_byte` ≥ L, outside the range of 10_state.md R25. Safe. Log 11. -/
  | poolCursor
deriving DecidableEq, Repr

/-- Why the model gives no meaning. -/
inductive Refusal where
  /-- The instruction has no meaning in the model yet; raised by `exec` alone. Safe. -/
  | notModelled (mnemonic : String)
  /-- A command before the first reset (70_reset_and_hazards.md R244, 93_implementation_defined.md U9); raised by the
  command port. Safe. Log 14. -/
  | beforeFirstReset
  /-- B, L, DLEN or CLEN is 0 (U11); raised by the step. Safe. Log 15. -/
  | noSuchHardware
  /-- An internal operation run by itself on a list that is no Byte^B; raised by the operations with a block operand.
  Safe. Log 10. -/
  | blockLength
deriving DecidableEq, Repr

/-- The state after a reset with the given parameters and sampled straps: the table of R50, and the model's own fields
empty. -/
def State.resetOf (p : Params) (encrypt policy : Bool) : State where
  par := p
  ebuf := []
  eByte := 0
  eBit := 0
  pool := []
  pByte := 0
  pBit := 0
  primed := false
  prev := []
  prevValid := false
  fcValid := false
  fcLen := ⟨0, 0⟩
  fcPos := ⟨0, 0⟩
  cfgEncrypt := encrypt
  cfgPolicy := policy
  lastValid := false
  lastMask := 0#5
  accMask := 0#5
  errCmd := false
  cntBlocks := 0#32
  cntFail := 0#32
  cntEmit := 0#32
  cntUnprimed := 0#32
  trace := Trace.empty
  past := []
  pending := []
  resetDone := true
  draws := 0
  ret := .nothing

/-- This hardware (R6, R7, R8, R10) right after reset, both straps low (log 2). -/
def State.reset : State := State.resetOf Params.std false false

/-- A step's result. -/
abbrev Result := Host.Outcome State Fault Refusal

end Sys2Proof.Machine
end

