-- ==== Sys2Proof/Machine/Flags.lean ====
section
/-! DEFINITION. The counters' saturating increment, the packing of the failure mask, and the status words that RD
computes from the state (10_state.md R41 to R45). -/

namespace Sys2Proof.Machine

/-- `sat_inc` (00_scope.md R15): counters stay at 2^32 - 1. -/
def satInc (c : Word) : Word := if c = BitVec.allOnes 32 then c else c + 1#32

/-- `{m_cont, m_long, m_runs, m_pok, m_mono}` (41_fips_validator.md R130, R139). -/
def packMask (mono pok runs long cont : Bool) : Mask :=
  BitVec.ofBool cont ++ BitVec.ofBool long ++ BitVec.ofBool runs ++ BitVec.ofBool pok ++ BitVec.ofBool mono

/-- CFG (R47): `zext_32({cfg_policy, cfg_encrypt})` (43_command_status.md R193). -/
def cfgWord (s : State) : Word := (BitVec.ofBool s.cfgPolicy ++ BitVec.ofBool s.cfgEncrypt).setWidth 32

/-- STATUS (R41): `zext_32({err_cmd, fc_valid, last_valid, prev_valid, primed})` (R193). -/
def statusWord (s : State) : Word :=
  (BitVec.ofBool s.errCmd ++ BitVec.ofBool s.fcValid ++ BitVec.ofBool s.lastValid ++ BitVec.ofBool s.prevValid
    ++ BitVec.ofBool s.primed).setWidth 32

/-- A cursor position in bits, `8*byte + bit` (R45). -/
def cursorBits (byte : Nat) (bit : Fin 8) : Nat := 8 * byte + bit.val

/-- ECUR and PCUR (R45): the cursor position on the 32-bit response port. A position of 2^32 or more has no stated
result and reads as a free value (log 16); no cursor of this hardware is that large. -/
def cursorWord (byte : Nat) (bit : Fin 8) : Word :=
  if cursorBits byte bit < 2 ^ 32 then BitVec.ofNat 32 (cursorBits byte bit) else Config.wideCursor (cursorBits byte bit)

/-- The code of an event (60_exceptions.md R211). -/
def Event.code : Event → Nat
  | .fipsFail _ => 1
  | .keyNotReady => 2
  | .badCommand => 3

end Sys2Proof.Machine
end

