-- ==== Sys2Proof/Machine/Ops.lean ====
section
/-! DEFINITION. The named operations over the byte memories and the state: memory access, `emit`, the responses, the
exchanges with the external hash and cipher, raising an event and the recovery from it. -/

namespace Sys2Proof.Machine

/-! ### Byte memories (20_memory.md R60 to R64) -/

/-- `mem[i]`: the one read of a byte (00_scope.md R15). -/
def Memory.read : Memory → Nat → Byte
  | [], _ => Memory.unlisted
  | c :: m, i => if c.1 = i then c.2 else Memory.read m i

/-- A cell in front of a memory, left out when it holds what an unlisted address reads as. -/
def Memory.cons (i : Nat) (v : Byte) (m : Memory) : Memory := if v = Memory.unlisted then m else (i, v) :: m

/-- `mem[i] <- v`: the one write of a byte (R15). It keeps the canonical form. -/
def Memory.write : Memory → Nat → Byte → Memory
  | [], i, v => Memory.cons i v []
  | c :: m, i, v =>
    if i < c.1 then Memory.cons i v (c :: m)
    else if i = c.1 then Memory.cons i v m
    else c :: Memory.write m i v

/-- The canonical form: addresses strictly rising, no entry equal to what an unlisted address reads as. -/
def Memory.wf : Memory → Bool
  | [] => true
  | c :: m => decide (c.2 ≠ Memory.unlisted) && m.all (fun d => decide (c.1 < d.1)) && Memory.wf m

/-- Every listed address is below `n`: nothing lies outside a memory of `n` bytes. -/
def Memory.below (n : Nat) (m : Memory) : Bool := m.all fun c => decide (c.1 < n)

/-- The bytes 0 to n-1, byte 0 first (20_memory.md R62). -/
def Memory.block (n : Nat) (m : Memory) : Block := (List.range n).map m.read

/-- Write the bytes of a list at rising addresses from `i` on. -/
def Memory.writeFrom : Memory → Nat → Block → Memory
  | m, _, [] => m
  | m, i, b :: bs => Memory.writeFrom (m.write i b) (i + 1) bs

/-- Write a whole block: `mem[i] <- blk[i]` from index 0 on. -/
def Memory.writeBlock (m : Memory) (blk : Block) : Memory := m.writeFrom 0 blk

/-- Bit `k` of byte `i` (20_memory.md R61). -/
def Memory.bit (m : Memory) (i k : Nat) : Bool := (m.read i).getLsbD k

/-! ### Outcomes -/

/-- Go on with the next state; a stop stays. -/
def andThen (o : Result) (f : State → Result) : Result :=
  match o with
  | .next s => f s
  | .fault r => .fault r
  | .refused r => .refused r

/-! ### Outputs of a step -/

/-- Replace the trace; every output goes through here. -/
def State.withTrace (s : State) (t : Trace) : State := { s with trace := t }

/-- `emit(bs)`: append to the output stream, element 0 first (20_memory.md R70). It always completes (log 6). -/
def emit (bs : Block) (s : State) : State := s.withTrace { s.trace with out := s.trace.out ++ bs }

/-- The one response of a command (30_encoding.md R88). -/
def respond (data : Word) (err : Bool) (s : State) : State :=
  s.withTrace { s.trace with rsps := s.trace.rsps ++ [⟨data, err⟩] }

/-- A marker in the event log (60_exceptions.md R212). -/
def logEvent (e : Event) (s : State) : State := s.withTrace { s.trace with events := s.trace.events ++ [e] }

/-- One more block emitted. -/
def countEmit (s : State) : State := { s with cntEmit := satInc s.cntEmit }

/-- Keep the value that an internal operation run by itself returns (log 9). -/
def returnValue (r : Ret) (s : State) : State := { s with ret := r }

/-! ### The external hash and cipher (20_memory.md R71) -/

/-- `HASH : Byte^L -> Byte^DLEN` (00_scope.md R9). Log 4. -/
def hashOf (p : Params) (pool : Block) : Block := (List.range p.DLEN).map (Config.digestByte pool p.DLEN)

/-- `CIPHER : Byte^DLEN x Byte^B -> Byte^CLEN` (R9). Log 4. -/
def cipherOf (p : Params) (key blk : Block) : Block := (List.range p.CLEN).map (Config.cipherByte key blk p.CLEN)

/-- The hash core sees these bytes (R71, R245). -/
def presentToHash (bs : Block) (s : State) : State :=
  s.withTrace { s.trace with hashCalls := s.trace.hashCalls ++ [bs] }

/-- The cipher core sees these bytes (R71, R245). -/
def presentToCipher (key pt : Block) (s : State) : State :=
  s.withTrace { s.trace with cipherCalls := s.trace.cipherCalls ++ [⟨key, pt⟩] }

/-! ### Events: the recording is all there is (60_exceptions.md R210 to R218), and the recovery (R219) -/

/-- `raise E(info)` (R212): the recording writes of the event table (R211), and the marker in the log. Control goes
nowhere and nothing is saved (R218); the step continues. -/
def raise (e : Event) (s : State) : State :=
  match e with
  | .fipsFail mask =>
    logEvent e { s with lastMask := mask, accMask := s.accMask ||| mask, cntFail := satInc s.cntFail }
  | .keyNotReady => logEvent e { s with cntUnprimed := satInc s.cntUnprimed }
  | .badCommand => logEvent e { s with errCmd := true }

/-- The clear (42_output_encoder.md R170), which is also the recovery from an event of a block cycle (R219): there is
no return. -/
def clearBlock (s : State) : State :=
  { s with ebuf := s.ebuf.writeBlock (List.replicate s.par.B 0x00#8), eByte := 0, eBit := 0 }

end Sys2Proof.Machine
end

