-- ==== Sys2Proof/Machine/Operands.lean ====
section
/-! DEFINITION. The operand forms: the three bit pairs of a sample byte, a single bit placed in a byte, the block operand,
the register address. -/

namespace Sys2Proof.Machine

/-- The lower-numbered bit of pair `j` of a sample byte (40_extractor.md R100). -/
def pairFirst (b : Byte) (j : Nat) : Bool := b.getLsbD (2 * j)

/-- The higher-numbered bit of pair `j` of a sample byte (R100). -/
def pairSecond (b : Byte) (j : Nat) : Bool := b.getLsbD (2 * j + 1)

/-- `zext_8(bit) << k` (R103, R104). -/
def bitAt (bit : Bool) (k : Fin 8) : Byte := (BitVec.ofBool bit).setWidth 8 <<< k.val

/-- OR a bit into bit `k` of a byte (R103). -/
def orBit (old : Byte) (k : Fin 8) (bit : Bool) : Byte := old ||| bitAt bit k

/-- Replace bit `k` of a byte (R104). -/
def replaceBit (old : Byte) (k : Fin 8) (bit : Bool) : Byte := (old &&& ~~~(0x01#8 <<< k.val)) ||| bitAt bit k

/-- Run an operation on a block operand, which is a Byte^B; another list is refused by name (log 10). -/
def withBlock (blk : Block) (s : State) (f : Block → State → State) : Result :=
  if blk.length = s.par.B then .next (f blk s) else .refused .blockLength

/-- `REG(a)`: the value RD returns (10_state.md R47, 43_command_status.md R193). -/
def reg (a : Byte) (s : State) : Word :=
  match a.toNat with
  | 0x00 => cfgWord s
  | 0x01 => statusWord s
  | 0x02 => s.lastMask.setWidth 32
  | 0x03 => s.accMask.setWidth 32
  | 0x04 => cursorWord s.eByte s.eBit
  | 0x05 => cursorWord s.pByte s.pBit
  | 0x06 => s.cntBlocks
  | 0x07 => s.cntFail
  | 0x08 => s.cntEmit
  | 0x09 => s.cntUnprimed
  | _ => 0#32

end Sys2Proof.Machine
end

