-- ==== Sys2Proof/Machine/Command.lean ====
section
/-! DEFINITION. NOP, RD and the reserved opcode (43_command_status.md). -/

namespace Sys2Proof.Machine

/-- NOP (R190): no state element changes, for every `arg`. -/
def execNop (_arg : Byte) (s : State) : Result := .next (respond 0#32 false s)

/-- RD (R191): no side effect; an unmapped address answers 0. -/
def execRd (a : Byte) (s : State) : Result := .next (respond (reg a s) false s)

/-- The reserved opcode (R192): event BadCommand, response (0, 1), nothing else. -/
def execReserved (_arg : Byte) (s : State) : Result := .next (respond 0#32 true (raise .badCommand s))

end Sys2Proof.Machine
end

