-- ==== Sys2Proof/Machine/Fips.lean ====
section
/-! DEFINITION. FIPSValidator (41_fips_validator.md): the flat bit sequence, the five sub-tests, the carried state, and the
operations FIPS, MONOBIT, POKER, RUNS, LONGRUN, CONTRUN. Every quantity is a natural number (R141). -/

namespace Sys2Proof.Machine

/-- The bits of a byte, bit 0 first. -/
def byteBits (b : Byte) : List Bool := (List.range 8).map b.getLsbD

/-- The flat bit sequence: `s[8*i + k] = blk[i][k]` (R132). -/
def flat (blk : Block) : List Bool := blk.flatMap byteBits

/-- A statistic passes iff it lies in its inclusive bounds (R131). -/
def outside (lo hi x : Nat) : Bool := !(decide (lo ≤ x) && decide (x ≤ hi))

/-- `n1`, the number of 1 bits (R133). -/
def onesCount (s : List Bool) : Nat := s.count true

/-- MONOBIT (R133). -/
def monobitFails (fb : Bounds) (s : List Bool) : Bool := outside fb.monoMin fb.monoMax (onesCount s)

/-- The value of a nibble (R134). -/
def nibbleValue (a b c d : Bool) : Nat := a.toNat + 2 * b.toNat + 4 * c.toNat + 8 * d.toNat

/-- The values of the consecutive nibbles of a sequence (R134). -/
def nibbles : List Bool → List Nat
  | a :: b :: c :: d :: s => nibbleValue a b c d :: nibbles s
  | _ => []

/-- `S = sum of f[w]^2`, w = 0..15 (R134). -/
def pokerStat (s : List Bool) : Nat := ((List.range 16).map fun w => (nibbles s).count w ^ 2).sum

/-- POKER (R134). -/
def pokerFails (fb : Bounds) (s : List Bool) : Bool := outside fb.pokerMin fb.pokerMax (pokerStat s)

/-- The runs of a sequence whose first bit has index `start`, in order of `start` (R135). -/
def runsFrom (start : Nat) : List Bool → List Run
  | [] => []
  | b :: s =>
    match runsFrom (start + 1) s with
    | [] => [⟨b, start, 1⟩]
    | r :: rs => if r.v = b then ⟨b, start, r.len + 1⟩ :: rs else ⟨b, start, 1⟩ :: r :: rs

/-- `runs(s)` (R135): a block's first run starts at index 0 whatever went before. -/
def runsOf (s : List Bool) : List Run := runsFrom 0 s

/-- `r[v][k+1]`: the number of runs of value `v` with `min(len, 6) = k+1` (R135). -/
def bucket (rs : List Run) (v : Bool) (k : Fin 6) : Nat :=
  rs.countP fun r => r.v == v && min r.len 6 == k.val + 1

/-- RUNSTEST (R135). -/
def runsFails (fb : Bounds) (rs : List Run) : Bool :=
  [false, true].any fun v => (List.finRange 6).any fun k => outside fb.runMin[k] fb.runMax[k] (bucket rs v k)

/-- LONGRUN (R136). -/
def longrunFails (fb : Bounds) (rs : List Run) : Bool := rs.any fun r => decide (fb.longrunMax < r.len)

/-- `ext.len[v]`: the largest length among the runs of value `v`, 0 if there is none (R137). -/
def extLen (rs : List Run) (v : Bool) : Nat := rs.foldr (fun r m => if r.v = v then max r.len m else m) 0

/-- `ext.pos[v]`: the start of the first run of value `v` that has that length, 0 if there is none (R137). -/
def extPos (rs : List Run) (v : Bool) : Nat :=
  let longest := extLen rs v
  match rs.find? fun r => r.v == v && r.len == longest with
  | some r => r.start
  | none => 0

/-- The run extremes (R137). -/
def extremes (rs : List Run) : Extremes :=
  ⟨⟨extLen rs false, extLen rs true⟩, ⟨extPos rs false, extPos rs true⟩⟩

/-- CONTRUN (R137): some value's longest run has the carried length and position. Log 17. -/
def contrunFails (ext : Extremes) (fcValid : Bool) (fcLen fcPos : PerBit) : Bool :=
  fcValid && [false, true].any fun v =>
    decide (0 < ext.len.get v) && decide (ext.len.get v = fcLen.get v) && decide (ext.pos.get v = fcPos.get v)

/-- The run extremes of a block. -/
def blockExtremes (blk : Block) : Extremes := extremes (runsOf (flat blk))

/-- The mask of the battery for a block, with the carried state as it stands before the call (R130, R139). All five
sub-tests are evaluated. -/
def fipsMask (blk : Block) (s : State) : Mask :=
  packMask (monobitFails s.par.FB (flat blk)) (pokerFails s.par.FB (flat blk)) (runsFails s.par.FB (runsOf (flat blk)))
    (longrunFails s.par.FB (runsOf (flat blk))) (contrunFails (blockExtremes blk) s.fcValid s.fcLen s.fcPos)

/-- The carried state update, whatever the mask (R138). -/
def fipsCarry (blk : Block) (s : State) : State :=
  { s with fcValid := true, fcLen := (blockExtremes blk).len, fcPos := (blockExtremes blk).pos }

/-- FIPS (R130): return the mask, update the carried state. -/
def execFips (blk : Block) (s : State) : Result :=
  withBlock blk s fun blk s => returnValue (.mask (fipsMask blk s)) (fipsCarry blk s)

/-- MONOBIT (R133). -/
def execMonobit (blk : Block) (s : State) : Result :=
  withBlock blk s fun blk s => returnValue (.failed (monobitFails s.par.FB (flat blk))) s

/-- POKER (R134). -/
def execPoker (blk : Block) (s : State) : Result :=
  withBlock blk s fun blk s => returnValue (.failed (pokerFails s.par.FB (flat blk))) s

/-- RUNS (R135). -/
def execRuns (blk : Block) (s : State) : Result :=
  withBlock blk s fun blk s => returnValue (.failed (runsFails s.par.FB (runsOf (flat blk)))) s

/-- LONGRUN (R136). -/
def execLongrun (blk : Block) (s : State) : Result :=
  withBlock blk s fun blk s => returnValue (.failed (longrunFails s.par.FB (runsOf (flat blk)))) s

/-- CONTRUN (R137): reads the carried state and leaves it; FIPS updates it (R138). -/
def execContrun (blk : Block) (s : State) : Result :=
  withBlock blk s fun blk s => returnValue (.failed (contrunFails (blockExtremes blk) s.fcValid s.fcLen s.fcPos)) s

end Sys2Proof.Machine
end

