-- ==== Sys2Proof/Machine/Encoder.lean ====
section
/-! DEFINITION. The block cycle and OutputEncoder (42_output_encoder.md): BLOCK_CYCLE, ENCODE, WHITEN, ENCRYPT, KEYDERIVE,
UNPRIMED. -/

namespace Sys2Proof.Machine

/-- `o[i] = blk[i] ^ prev[i]` (R163). -/
def xorBlock (a b : Block) : Block := List.zipWith (· ^^^ ·) a b

/-- Remember the passing block itself (R163). -/
def remember (blk : Block) (s : State) : State := { s with prev := s.prev.writeBlock blk }

/-- WHITEN (R163): the first passing block only seeds `prev` (R164). -/
def whiten (blk : Block) (s : State) : State :=
  if s.prevValid then remember blk (countEmit (emit (xorBlock blk (s.prev.block s.par.B)) s))
  else { remember blk s with prevValid := true }

/-- The key of KEYDERIVE: the hash of the whole pool as it stands (R166), the whole digest (R168). -/
def poolKey (s : State) : Block := hashOf s.par (s.pool.block s.par.L)

/-- UNPRIMED (R167): count, raise KeyNotReady, then DROP or PASS. -/
def unprimed (blk : Block) (s : State) : State :=
  if s.cfgPolicy then countEmit (emit blk (raise .keyNotReady s)) else raise .keyNotReady s

/-- ENCRYPT on a primed pool (R165): the key, the ciphertext, the emission. -/
def encryptPrimed (blk : Block) (s : State) : State :=
  countEmit (emit (cipherOf s.par (poolKey s) blk) (presentToCipher (poolKey s) blk (presentToHash (s.pool.block s.par.L) s)))

/-- ENCRYPT (R165). -/
def encrypt (blk : Block) (s : State) : State := if s.primed then encryptPrimed blk s else unprimed blk s

/-- ENCODE (R162): dispatch on the mode. -/
def encodeBlock (blk : Block) (s : State) : State := if s.cfgEncrypt then encrypt blk s else whiten blk s

/-- The verdict registers of a block cycle (R160, 10_state.md R42 to R44). -/
def recordVerdict (mask : Mask) (s : State) : State :=
  { s with lastMask := mask, lastValid := true, accMask := s.accMask ||| mask, cntBlocks := satInc s.cntBlocks }

/-- What follows the verdict: FipsFail discards the block, a passing block is encoded (R160). -/
def settleBlock (mask : Mask) (blk : Block) (s : State) : State :=
  if mask = 0#5 then encodeBlock blk s else raise (.fipsFail mask) s

/-- BLOCK_CYCLE (R160): validate, encode or discard, clear. -/
def blockCycle (s : State) : State :=
  let blk := s.ebuf.block s.par.B
  let mask := fipsMask blk s
  clearBlock (settleBlock mask blk (recordVerdict mask (fipsCarry blk s)))

/-- BLOCK_CYCLE (R160). -/
def execBlockCycle (s : State) : Result := .next (blockCycle s)

/-- ENCODE (R162). -/
def execEncode (blk : Block) (s : State) : Result := withBlock blk s encodeBlock

/-- WHITEN (R163). -/
def execWhiten (blk : Block) (s : State) : Result := withBlock blk s whiten

/-- ENCRYPT (R165). -/
def execEncrypt (blk : Block) (s : State) : Result := withBlock blk s encrypt

/-- KEYDERIVE (R166): present the pool to the hash, return the digest. -/
def execKeyDerive (s : State) : Result :=
  .next (returnValue (.key (poolKey s)) (presentToHash (s.pool.block s.par.L) s))

/-- UNPRIMED (R167). -/
def execUnprimed (blk : Block) (s : State) : Result := withBlock blk s unprimed

end Sys2Proof.Machine
end

