-- ==== Sys2Proof/Machine/Extractor.lean ====
section
/-! DEFINITION. BitExtractor, EntropyBuffer accumulation, DiscardPool writes (40_extractor.md): PUSH, PAIR, ACCEPT,
DISCARD. -/

namespace Sys2Proof.Machine

/-- The write of ACCEPT: OR the bit at the cursor, then advance it (R103). -/
def writeAccepted (bit : Bool) (s : State) : State :=
  if s.eBit = 7 then
    { s with ebuf := s.ebuf.write s.eByte (orBit (s.ebuf.read s.eByte) s.eBit bit), eBit := 0, eByte := s.eByte + 1 }
  else
    { s with ebuf := s.ebuf.write s.eByte (orBit (s.ebuf.read s.eByte) s.eBit bit), eBit := s.eBit + 1 }

/-- The fullness check, bound-inclusive, after the cursor has advanced (R106, 70_reset_and_hazards.md R250). -/
def checkFull (s : State) : State := if s.eByte ≥ s.par.B then blockCycle s else s

/-- ACCEPT (R103). Its precondition `e_byte < B` holds in every state a run reaches (10_state.md R23); elsewhere the
model stops (log 11). -/
def accept (bit : Bool) (s : State) : Result :=
  if s.eByte < s.par.B then .next (checkFull (writeAccepted bit s)) else .fault .ebufCursor

/-- The write of DISCARD: replace the bit at the cursor, advance it modulo the ring, set `primed` on the wrap (R104). -/
def writeDiscarded (bit : Bool) (s : State) : State :=
  let pool := s.pool.write s.pByte (replaceBit (s.pool.read s.pByte) s.pBit bit)
  if s.pBit = 7 then
    if s.pByte = s.par.L - 1 then { s with pool := pool, pBit := 0, pByte := 0, primed := true }
    else { s with pool := pool, pBit := 0, pByte := s.pByte + 1 }
  else { s with pool := pool, pBit := s.pBit + 1 }

/-- DISCARD (R104). `p_byte < L` holds in every state a run reaches (10_state.md R25); elsewhere the model stops
(log 11). -/
def discard (bit : Bool) (s : State) : Result :=
  if s.pByte < s.par.L then .next (writeDiscarded bit s) else .fault .poolCursor

/-- PAIR (R102): keep the first bit of a differing pair, pool both bits of an equal one. -/
def pair (b0 b1 : Bool) (s : State) : Result :=
  if b0 ≠ b1 then accept b0 s else andThen (discard b0 s) (discard b1)

/-- PAIR on pair `j` of a sample byte (R100). -/
def pairOf (b : Byte) (j : Nat) (s : State) : Result := pair (pairFirst b j) (pairSecond b j) s

/-- PUSH (R100): the three pairs in order, each to completion, then the response. Bits 7:6 are never read (R105). -/
def execPush (b : Byte) (s : State) : Result :=
  andThen (pairOf b 0 s) fun s =>
  andThen (pairOf b 1 s) fun s =>
  andThen (pairOf b 2 s) fun s => .next (respond 0#32 false s)

/-- PAIR (R102). -/
def execPair (b0 b1 : Bool) (s : State) : Result := pair b0 b1 s

/-- ACCEPT (R103). -/
def execAccept (bit : Bool) (s : State) : Result := accept bit s

/-- DISCARD (R104). -/
def execDiscard (bit : Bool) (s : State) : Result := discard bit s

end Sys2Proof.Machine
end

