-- ==== Sys2Proof/Machine/Dispatch.lean ====
section
/-! DEFINITION. One arm for each operation of spec/opcode_table.json. -/

namespace Sys2Proof.Machine

def exec (i : Instr) (s : State) : Host.Outcome State Fault Refusal :=
  match i with
  | .nop arg => Sys2Proof.Machine.execNop arg s
  | .push b => Sys2Proof.Machine.execPush b s
  | .rd a => Sys2Proof.Machine.execRd a s
  | .reserved arg => Sys2Proof.Machine.execReserved arg s
  | .pair b0 b1 => Sys2Proof.Machine.execPair b0 b1 s
  | .accept bit => Sys2Proof.Machine.execAccept bit s
  | .discard bit => Sys2Proof.Machine.execDiscard bit s
  | .blockCycle => Sys2Proof.Machine.execBlockCycle s
  | .fips blk => Sys2Proof.Machine.execFips blk s
  | .monobit blk => Sys2Proof.Machine.execMonobit blk s
  | .poker blk => Sys2Proof.Machine.execPoker blk s
  | .runs blk => Sys2Proof.Machine.execRuns blk s
  | .longrun blk => Sys2Proof.Machine.execLongrun blk s
  | .contrun blk => Sys2Proof.Machine.execContrun blk s
  | .encode blk => Sys2Proof.Machine.execEncode blk s
  | .whiten blk => Sys2Proof.Machine.execWhiten blk s
  | .encrypt blk => Sys2Proof.Machine.execEncrypt blk s
  | .keyDerive => Sys2Proof.Machine.execKeyDerive s
  | .unprimed blk => Sys2Proof.Machine.execUnprimed blk s

end Sys2Proof.Machine
end

