-- ==== Sys2Proof/Machine/Reset.lean ====
section
/-! DEFINITION. The reset pin (70_reset_and_hazards.md R240 to R242): between transactions and in the middle of one. -/

namespace Sys2Proof.Machine

/-- What a strap register latches at the sampling edge (R242); an unstable strap latches a free value (R257, log 13). -/
def latch (strap : Strap) (draw : Nat) : Bool :=
  match strap with
  | .low => false
  | .high => true
  | .unstable => Config.freeStrap draw

/-- Reset (R240): every element at its reset value (10_state.md R50), the mode and the policy from the straps. The run's
outputs are over and kept in `past`; the host's later inputs are still to come. -/
def pulseReset (enc pol : Strap) (s : State) : State :=
  { State.resetOf s.par (latch enc s.draws) (latch pol (s.draws + 1)) with
    past := s.past ++ [s.trace], pending := s.pending, draws := s.draws + 2 }

/-- The elements of a list that are new since an earlier length. -/
def newSince {α : Type} (old new : List α) : List α := new.drop old.length

/-- The hash request bytes seen when `n` bytes have been handed over; a call of which no byte was is not seen. -/
def cutHash (n : Nat) (bs : List Block) : List Block := (bs.map fun b => b.take n).filter (· ≠ [])

/-- The cipher request bytes seen when `key` and `pt` bytes have been handed over. -/
def cutCipher (key pt : Nat) (cs : List CipherCall) : List CipherCall :=
  (cs.map fun c => ⟨c.key.take key, c.pt.take pt⟩).filter (· ≠ ⟨[], []⟩)

/-- What the outside saw of a transaction that `rst` cut short (93_implementation_defined.md U14): what was handed over or
raised before the cut stays, in the order of the pseudocode (R260); the rest and the response, which is last, are lost
(R240). A transaction runs at most one block cycle, so at most one call of each core is new. Log 12. -/
def cutTrace (cut : Cut) (old new : Trace) : Trace :=
  match cut with
  | .hashing n => { old with hashCalls := old.hashCalls ++ cutHash n (newSince old.hashCalls new.hashCalls) }
  | .ciphering key pt => { old with
      hashCalls := new.hashCalls
      cipherCalls := old.cipherCalls ++ cutCipher key pt (newSince old.cipherCalls new.cipherCalls) }
  | .emitting n => { new with rsps := old.rsps, out := old.out ++ (newSince old.out new.out).take n }

/-- Reset in the middle of the transaction that would lead from `s` to `t` (R240, U14): the state is the reset state. -/
def abandon (cut : Cut) (enc pol : Strap) (s t : State) : State :=
  pulseReset enc pol (s.withTrace (cutTrace cut s.trace t.trace))

end Sys2Proof.Machine
end

