-- ==== Sys2Proof/Machine/Port.lean ====
section
/-! DEFINITION. The command port and the reset pin: what one host input does (70_reset_and_hazards.md R245, R246). -/

namespace Sys2Proof.Machine

/-- A command word accepted on the command port: one transaction (00_scope.md R16). Before the first reset a command has
no meaning (R244, log 14). -/
def command (w : CmdWord) (s : State) : Result :=
  if s.resetDone then exec (decode w) s else .refused .beforeFirstReset

/-- One host input (R246). -/
def serve (i : HostInput) (s : State) : Result :=
  match i with
  | .cmd w => command w s
  | .rst enc pol => .next (pulseReset enc pol s)
  | .rstDuring w cut enc pol => andThen (command w s) fun t => .next (abandon cut enc pol s t)

/-- Take the next host input; with none pending ECB is idle and keeps all state (60_exceptions.md R226). -/
def takeInput (s : State) : Result :=
  match s.pending with
  | [] => .next s
  | i :: rest => serve i { s with pending := rest }

/-- Present a command word as the very next host input. -/
def presentWord (w : Nat) (s : State) : State := { s with pending := .cmd (BitVec.ofNat 10 w) :: s.pending }

end Sys2Proof.Machine
end

