-- ==== Sys2Proof/Machine/Step.lean ====
section
/-! DEFINITION. One step: one host input, that is one whole transaction or one reset (00_scope.md R5, R16). -/

namespace Sys2Proof.Machine

/-- One step. B, L, DLEN and CLEN of 0 are no such hardware (93_implementation_defined.md U11, log 15). -/
def step (s : State) : Host.Outcome State Fault Refusal :=
  if s.par.valid then takeInput s else .refused .noSuchHardware

/-- The state in which the host presents this word next. ECB fetches nothing: a command is data on a port
(10_state.md R31, log 7). -/
def State.withFetchWord (s : State) (_nbits w : Nat) : State := presentWord w s

end Sys2Proof.Machine
end

