-- ==== Sys2Proof/Machine/Assembler.lean ====
section
/-! DEFINITION. The assembler syntax of the spec (30_encoding.md R86, R87), as host inputs. -/

namespace Sys2Proof.Machine

/-- The register names of 10_state.md R47. -/
inductive RegName where
  | cfg | status | lastMask | accMask | ecur | pcur | cntBlocks | cntFail | cntEmit | cntUnprimed
deriving DecidableEq, Repr

/-- The address of a named register (R47). -/
def RegName.addr : RegName → Byte
  | .cfg => 0x00#8
  | .status => 0x01#8
  | .lastMask => 0x02#8
  | .accMask => 0x03#8
  | .ecur => 0x04#8
  | .pcur => 0x05#8
  | .cntBlocks => 0x06#8
  | .cntFail => 0x07#8
  | .cntEmit => 0x08#8
  | .cntUnprimed => 0x09#8

/-- A line of a command list (R86, R87). -/
inductive Line where
  /-- `nop <n>`; plain `nop` is `nop 0`. -/
  | nop (n : Byte)
  | push (b : Byte)
  | rd (r : RegName)
  | rdAddr (a : Byte)
  /-- `.word <10-bit value>`. -/
  | word (w : CmdWord)
  /-- `chunk b0, b1, ...`: one RawSampleChunk. -/
  | chunk (bs : Block)
  /-- `reset enc=<0|1> pol=<0|1>`: not a command, a pulse of `rst`. -/
  | reset (enc pol : Bool)
deriving DecidableEq, Repr

/-- The strap level of a bit. -/
def strapOf (b : Bool) : Strap := if b then .high else .low

/-- The host inputs a line stands for (R86, R87). -/
def Line.inputs : Line → List HostInput
  | .nop n => [.cmd (0x000#10 ||| n.setWidth 10)]
  | .push b => [.cmd (0x100#10 ||| b.setWidth 10)]
  | .rd r => [.cmd (0x200#10 ||| r.addr.setWidth 10)]
  | .rdAddr a => [.cmd (0x200#10 ||| a.setWidth 10)]
  | .word w => [.cmd w]
  | .chunk bs => bs.map fun b => .cmd (0x100#10 ||| b.setWidth 10)
  | .reset enc pol => [.rst (strapOf enc) (strapOf pol)]

/-- A command list, in order. -/
def assemble (p : List Line) : List HostInput := p.flatMap Line.inputs

end Sys2Proof.Machine
end

