-- ==== Sys2Proof/Safety.lean ====
section
/-! DEFINITION. What claims speak of: cursor positions, runs of bits, the invariants of a machine that runs from reset
(10_state.md R22 to R29), and what counts as a safe run: a step never stops (60_exceptions.md R227). -/

namespace Sys2Proof.Machine

/-- ECUR as a number: the accepted bits held (10_state.md R22, R45). -/
def State.ecur (s : State) : Nat := cursorBits s.eByte s.eBit

/-- PCUR as a number: the pool write position in bits (R45). -/
def State.pcur (s : State) : Nat := cursorBits s.pByte s.pBit

/-- Bit `n` of a memory in the order a cursor visits it (20_memory.md R61, R62). -/
def Memory.bitPos (m : Memory) (n : Nat) : Bool := m.bit (n / 8) (n % 8)

/-- How many of the three examined pairs of a sample byte differ (40_extractor.md R100, R102). -/
def differingPairs (b : Byte) : Nat :=
  (b.getLsbD 0 != b.getLsbD 1).toNat + (b.getLsbD 2 != b.getLsbD 3).toNat + (b.getLsbD 4 != b.getLsbD 5).toNat

/-- ACCEPT of each bit of a list, in order. -/
def acceptAll : List Bool → State → Result
  | [], s => .next s
  | b :: bs, s => andThen (exec (.accept b) s) (acceptAll bs)

/-- DISCARD of each bit of a list, in order. -/
def discardAll : List Bool → State → Result
  | [], s => .next s
  | b :: bs, s => andThen (exec (.discard b) s) (discardAll bs)

/-- `k` steps, stopping at the first stop. -/
def steps : Nat → State → Result
  | 0, s => .next s
  | k + 1, s => andThen (step s) (steps k)

/-- The verdict FIPS gives for a block in a state (41_fips_validator.md R130), read off the operation itself. -/
def Fips (blk : Block) (s : State) (mask : Mask) : Prop := ∃ t, exec (.fips blk) s = .next t ∧ t.ret = .mask mask

/-- A run of a bit sequence: a maximal stretch of equal consecutive bits (41_fips_validator.md R135). -/
def IsRun (s : List Bool) (v : Bool) (start len : Nat) : Prop :=
  0 < len ∧ (∀ j < len, s[start + j]? = some v) ∧ (start = 0 ∨ s[start - 1]? = some (!v))
    ∧ (start + len = s.length ∨ s[start + len]? = some (!v))

/-- The run extremes of a bit sequence (R137): for each value the length of the longest run and the start of the first run
of that length, or 0 and 0 if there is no run of the value. -/
def IsExtremes (s : List Bool) (ext : Extremes) : Prop :=
  ∀ v, ((∀ start len, ¬ IsRun s v start len) ∧ ext.len.get v = 0 ∧ ext.pos.get v = 0) ∨
    (IsRun s v (ext.pos.get v) (ext.len.get v) ∧
      ∀ start len, IsRun s v start len → len ≤ ext.len.get v ∧ (len = ext.len.get v → ext.pos.get v ≤ start))

/-- The cursors are in range between transactions (R22, R23 (a), R25). -/
def State.cursorsInRange (s : State) : Prop := s.eByte < s.par.B ∧ s.pByte < s.par.L

/-- The memories are in canonical form, and nothing is listed outside their B, L and B bytes. -/
def State.memoriesOk (s : State) : Prop :=
  (s.ebuf.wf ∧ s.ebuf.below s.par.B) ∧ (s.pool.wf ∧ s.pool.below s.par.L) ∧ (s.prev.wf ∧ s.prev.below s.par.B)

/-- R23 (b): every bit of `ebuf` at or beyond the cursor is 0. -/
def State.clearBeyondCursor (s : State) : Prop := ∀ n, s.ecur ≤ n → s.ebuf.bitPos n = false

/-- Discarded bits come in equal pairs and 8 is even (40_extractor.md R104, 95_test_vectors.md V50): the pool cursor is
even and bits 2j and 2j+1 of every pool byte are equal. -/
def State.poolPaired (s : State) : Prop := s.pBit.val % 2 = 0 ∧ ∀ n, s.pool.bitPos (2 * n) = s.pool.bitPos (2 * n + 1)

/-- In encrypted mode `prev` and `prev_valid` are never touched (R27, 42_output_encoder.md R165). -/
def State.modesExclusive (s : State) : Prop :=
  (s.cfgEncrypt = true → s.prevValid = false) ∧ (s.prevValid = false → ∀ i, s.prev.read i = 0x00#8)
    ∧ (s.cfgEncrypt = false → s.cntUnprimed = 0#32 ∧ s.trace.hashCalls = [] ∧ s.trace.cipherCalls = [])

/-- The carried state and the verdict registers are valid together (R29, R42), `acc_mask` holds every bit of `last_mask`
(R43), and before the first block cycle nothing is counted (R44). -/
def State.verdictOk (s : State) : Prop :=
  s.fcValid = s.lastValid ∧ s.lastMask &&& s.accMask = s.lastMask
    ∧ (s.lastValid = false → s.cntBlocks = 0#32 ∧ s.accMask = 0#5 ∧ s.fcLen = ⟨0, 0⟩ ∧ s.fcPos = ⟨0, 0⟩)

/-- `fc_len` and `fc_pos` fit their ranges 0..8*B (R29). -/
def State.carriedInRange (s : State) : Prop :=
  s.fcLen.zero + s.fcPos.zero ≤ 8 * s.par.B ∧ s.fcLen.one + s.fcPos.one ≤ 8 * s.par.B

/-- Every block cycle either failed, was emitted, only seeded `prev`, or was dropped by policy: while no counter has
saturated, the counters add up (R44; 42_output_encoder.md R160 to R167). In whitening mode nothing is emitted before `prev`
is seeded (R164). -/
def State.countersAddUp (s : State) : Prop :=
  (s.cntBlocks.toNat < 2 ^ 32 - 1 →
    s.cntBlocks.toNat = s.cntFail.toNat + s.cntEmit.toNat
      + (if s.cfgEncrypt then (if s.cfgPolicy then 0 else s.cntUnprimed.toNat) else s.prevValid.toNat)) ∧
  (s.cfgEncrypt = false → s.cntEmit ≠ 0#32 → s.prevValid = true)

/-- In whitening mode every emission is a whole block of B bytes, so the output stream is `cnt_emit` blocks long while
the counter has not saturated (42_output_encoder.md R171, 20_memory.md R70). -/
def State.outputInBlocks (s : State) : Prop :=
  s.cfgEncrypt = false → s.cntEmit.toNat < 2 ^ 32 - 1 → s.trace.out.length = s.par.B * s.cntEmit.toNat

/-- The invariant on which a safe run rests: cursors in range, memories in form. -/
structure State.Inv (s : State) : Prop where
  cursors : s.cursorsInRange
  memories : s.memoriesOk

/-- A state from which commands are meaningful: the machine exists (R6 to R8), has been reset (R244), and is in form. -/
structure State.Ready (s : State) : Prop where
  valid : s.par.valid = true
  reset : s.resetDone = true
  inv : s.Inv

end Sys2Proof.Machine
end

