-- ==== Sys2Proof/Certificates/Slice0/Obligations.lean ====
section
/-! DEFINITION. The statements for the provers. Each docstring names the rule of spec/ it formalises. PUSH, ENCODE, ENCRYPT and
the step are said to complete under the fairness assumption of 70_reset_and_hazards.md R254 and R255 (log 6). What an internal
operation run by itself returns is read in `ret`, and what the outside saw in `trace`, the model's own fields (log 9, log 8). -/

open Sys2Proof Sys2Proof.Machine

/-! ### Reset and the host's inputs -/

/-- R50: the state after reset, for every strap setting and every instance. -/
def Obligations.ResetStateIsTheResetTable : Prop :=
  ∀ (p : Params) (enc pol : Bool), ∃ t, t = State.resetOf p enc pol ∧
    (∀ i, t.ebuf.read i = 0x00#8) ∧ t.eByte = 0 ∧ t.eBit = 0 ∧
    (∀ i, t.pool.read i = 0x00#8) ∧ t.pByte = 0 ∧ t.pBit = 0 ∧ t.primed = false ∧
    (∀ i, t.prev.read i = 0x00#8) ∧ t.prevValid = false ∧
    t.fcValid = false ∧ t.fcLen = ⟨0, 0⟩ ∧ t.fcPos = ⟨0, 0⟩ ∧ t.cfgEncrypt = enc ∧ t.cfgPolicy = pol ∧
    t.lastValid = false ∧ t.lastMask = 0#5 ∧ t.accMask = 0#5 ∧ t.errCmd = false ∧
    t.cntBlocks = 0#32 ∧ t.cntFail = 0#32 ∧ t.cntEmit = 0#32 ∧ t.cntUnprimed = 0#32

/-- R6, R7, R8 and R10: the parameters of this hardware. That the model keeps them in State is its choice (log 1); R10 marks
the bounds as general knowledge (log 5). -/
def Obligations.ThisHardwareHasTheStatedParameters : Prop :=
  State.reset.par.B = 2500 ∧ State.reset.par.L = 64 ∧ State.reset.par.DLEN = 64 ∧ State.reset.par.valid = true ∧
    State.reset.par.FB = ⟨9726, 10274, 1563176, 1576928, #v[2315, 1114, 527, 240, 103, 103],
      #v[2685, 1386, 723, 384, 209, 209], 25⟩

/-- R240, R242: a pulse of `rst` with stable straps leaves the state of the reset table with the straps' mode and policy; an
unstable strap latches some value (R257). That the later host inputs stay pending and the ended run's outputs are kept is
the model's choice (log 7, log 8). -/
def Obligations.ResetPulseLoadsTheResetState : Prop :=
  ∀ (s : State) (enc pol : Strap) (rest : List HostInput), s.par.valid = true → s.pending = .rst enc pol :: rest →
    ∃ e q d, step s = .next { State.resetOf s.par e q with past := s.past ++ [s.trace], pending := rest, draws := d } ∧
      (enc = .low → e = false) ∧ (enc = .high → e = true) ∧ (pol = .low → q = false) ∧ (pol = .high → q = true)

/-- R240, R242, R260, 93_implementation_defined.md U14: `rst` in the middle of a transaction leaves the reset state with the
straps' mode and policy (an unstable strap latches some value, R257); the response is lost. What was handed over before the
cut stays, in the order of the pseudocode: cut while hashing, only the first bytes of the pool were seen; cut while
ciphering, the whole hash request and the first key and plaintext bytes; cut while emitting, both requests, the events
raised, and the first output bytes. The event log and the cut points are the model's (log 8, log 12). -/
def Obligations.ResetMidTransactionKeepsHandedOverBytes : Prop :=
  ∀ (s : State) (w : CmdWord) (cut : Cut) (enc pol : Strap) (rest : List HostInput), s.Ready →
    s.pending = .rstDuring w cut enc pol :: rest →
    ∃ u e q d tr, exec (decode w) { s with pending := rest } = .next u ∧
      step s = .next { State.resetOf s.par e q with past := s.past ++ [tr], pending := rest, draws := d } ∧
      (enc = .low → e = false) ∧ (enc = .high → e = true) ∧ (pol = .low → q = false) ∧ (pol = .high → q = true) ∧
      tr.rsps = s.trace.rsps ∧
      (∀ n, cut = .hashing n → tr.out = s.trace.out ∧ tr.cipherCalls = s.trace.cipherCalls ∧ tr.events = s.trace.events ∧
        tr.hashCalls = s.trace.hashCalls ++
          ((u.trace.hashCalls.drop s.trace.hashCalls.length).map (List.take n)).filter (· ≠ [])) ∧
      (∀ k p, cut = .ciphering k p → tr.out = s.trace.out ∧ tr.events = s.trace.events ∧
        tr.hashCalls = u.trace.hashCalls ∧
        tr.cipherCalls = s.trace.cipherCalls ++
          ((u.trace.cipherCalls.drop s.trace.cipherCalls.length).map fun c =>
            ⟨c.key.take k, c.pt.take p⟩).filter (· ≠ ⟨[], []⟩)) ∧
      (∀ n, cut = .emitting n → tr.hashCalls = u.trace.hashCalls ∧ tr.cipherCalls = u.trace.cipherCalls ∧
        tr.events = u.trace.events ∧ tr.out = s.trace.out ++ (u.trace.out.drop s.trace.out.length).take n)

/-- A step with a command word pending is the decoded command's transaction, the word being taken off the host's inputs
(00_scope.md R16; log 7). -/
def Obligations.StepRunsTheDecodedCommand : Prop :=
  ∀ (s : State) (w : CmdWord) (rest : List HostInput), s.par.valid = true → s.resetDone = true →
    s.pending = .cmd w :: rest → step s = exec (decode w) { s with pending := rest }

/-- R226: with no command pending ECB keeps all state, however long it idles. -/
def Obligations.IdleKeepsAllState : Prop :=
  ∀ (k : Nat) (s : State), s.par.valid = true → s.pending = [] → steps k s = .next s

/-- The model's stops at the port (log 14, log 15): a command before the first reset, and an instance with a parameter of 0,
have no meaning. -/
def Obligations.MeaninglessRunsAreRefused : Prop :=
  (∀ (s : State) (w : CmdWord) (rest : List HostInput), s.par.valid = true → s.resetDone = false →
    s.pending = .cmd w :: rest → step s = .refused .beforeFirstReset) ∧
  (∀ s : State, s.par.B = 0 ∨ s.par.L = 0 ∨ s.par.DLEN = 0 ∨ s.par.CLEN = 0 → step s = .refused .noSuchHardware)

/-! ### Encoding -/

/-- R82: every word lies in exactly one row of the opcode map and decodes to that row's operation, `arg` as it stands. -/
def Obligations.EveryWordDecodesToItsOneRow : Prop :=
  ∀ w : CmdWord, (opcodeRows.filter (rowMatches w)).map (·.1) = [(decode w).mnemonic] ∧
    (w &&& 0x300#10 = 0x000#10 → decode w = .nop (w.extractLsb' 0 8)) ∧
    (w &&& 0x300#10 = 0x100#10 → decode w = .push (w.extractLsb' 0 8)) ∧
    (w &&& 0x300#10 = 0x200#10 → decode w = .rd (w.extractLsb' 0 8)) ∧
    (w &&& 0x300#10 = 0x300#10 → decode w = .reserved (w.extractLsb' 0 8))

/-- Encoding and decoding agree both ways, and exactly the commands have an encoding (R80 to R84). -/
def Obligations.DecodeAndEncodeAreInverse : Prop :=
  (∀ (i : Instr) (w : CmdWord), encode i = some w → decode w = i) ∧ (∀ w : CmdWord, encode (decode w) = some w) ∧
    (∀ i : Instr, (encode i).isSome = i.isCommand)

/-- Words written out in 95_test_vectors.md decode to the commands they stand for. -/
def Obligations.SpecWordsDecode : Prop :=
  decode 0b0000000000#10 = .nop 0x00#8 ∧ decode 0b0011111111#10 = .nop 0xFF#8 ∧ decode 0b0100010101#10 = .push 0x15#8 ∧
    decode 0b0111011000#10 = .push 0xD8#8 ∧ decode 0b1000000001#10 = .rd 0x01#8 ∧ decode 0b1000001010#10 = .rd 0x0A#8 ∧
    decode 0b1100000000#10 = .reserved 0x00#8 ∧ decode 0b1111111111#10 = .reserved 0xFF#8

/-- R86, R87: what the assembler's lines stand for, `rd` with each of the ten register names standing for the address of
10_state.md R47; the chunk boundary has no effect (40_extractor.md R101). -/
def Obligations.AssemblerLinesStandForTheirCommands : Prop :=
  (∀ n, ∃ w, Line.inputs (.nop n) = [.cmd w] ∧ decode w = .nop n) ∧
  (∀ b, ∃ w, Line.inputs (.push b) = [.cmd w] ∧ decode w = .push b) ∧
  (∀ r, ∃ w, Line.inputs (.rd r) = [.cmd w] ∧ decode w = .rd r.addr) ∧
  [RegName.cfg, .status, .lastMask, .accMask, .ecur, .pcur, .cntBlocks, .cntFail, .cntEmit, .cntUnprimed].map RegName.addr =
    [0x00#8, 0x01#8, 0x02#8, 0x03#8, 0x04#8, 0x05#8, 0x06#8, 0x07#8, 0x08#8, 0x09#8] ∧
  (∀ a, ∃ w, Line.inputs (.rdAddr a) = [.cmd w] ∧ decode w = .rd a) ∧
  (∀ w, Line.inputs (.word w) = [.cmd w]) ∧
  (∀ bs, Line.inputs (.chunk bs) = assemble (bs.map .push)) ∧
  (∀ as bs, Line.inputs (.chunk (as ++ bs)) = Line.inputs (.chunk as) ++ Line.inputs (.chunk bs)) ∧
  (∀ enc pol, ∃ e q, Line.inputs (.reset enc pol) = [.rst e q] ∧ (e = if enc then .high else .low) ∧
    q = if pol then .high else .low)

/-! ### NOP, RD, the reserved opcode, events -/

/-- R190: NOP changes no state element and emits nothing, for every `arg`; its response is (0, 0). -/
def Obligations.NopOnlyResponds : Prop :=
  ∀ (arg : Byte) (s : State),
    exec (.nop arg) s = .next { s with trace := { s.trace with rsps := s.trace.rsps ++ [⟨0#32, false⟩] } }

/-- R191, R193: RD answers the register's value, bit by bit, and changes nothing; an unmapped address answers 0. ECUR and
PCUR are stated where they fit in 32 bits (log 16). -/
def Obligations.RdAnswersTheRegister : Prop :=
  ∀ (a : Byte) (s : State), ∃ w : Word,
    exec (.rd a) s = .next { s with trace := { s.trace with rsps := s.trace.rsps ++ [⟨w, false⟩] } } ∧
    (a = 0x00#8 → w.getLsbD 0 = s.cfgEncrypt ∧ w.getLsbD 1 = s.cfgPolicy ∧ ∀ k, 2 ≤ k → w.getLsbD k = false) ∧
    (a = 0x01#8 → w.getLsbD 0 = s.primed ∧ w.getLsbD 1 = s.prevValid ∧ w.getLsbD 2 = s.lastValid ∧
      w.getLsbD 3 = s.fcValid ∧ w.getLsbD 4 = s.errCmd ∧ ∀ k, 5 ≤ k → w.getLsbD k = false) ∧
    (a = 0x02#8 → w.toNat = s.lastMask.toNat) ∧ (a = 0x03#8 → w.toNat = s.accMask.toNat) ∧
    (a = 0x04#8 → s.ecur < 2 ^ 32 → w.toNat = s.ecur) ∧ (a = 0x05#8 → s.pcur < 2 ^ 32 → w.toNat = s.pcur) ∧
    (a = 0x06#8 → w = s.cntBlocks) ∧ (a = 0x07#8 → w = s.cntFail) ∧ (a = 0x08#8 → w = s.cntEmit) ∧
    (a = 0x09#8 → w = s.cntUnprimed) ∧ (0x0A ≤ a.toNat → w = 0#32)

/-- R193, R67: what RD answers does not depend on any byte of `ebuf`, `pool` or `prev`, nor on `fc_len` or `fc_pos`. -/
def Obligations.RdRevealsNoBuffer : Prop :=
  ∀ (a : Byte) (s : State) (eb po pr : Memory) (fl fp : PerBit), ∃ r : Response,
    exec (.rd a) s = .next { s with trace := { s.trace with rsps := s.trace.rsps ++ [r] } } ∧
    exec (.rd a) { s with ebuf := eb, pool := po, prev := pr, fcLen := fl, fcPos := fp } =
      .next { s with ebuf := eb, pool := po, prev := pr, fcLen := fl, fcPos := fp,
                     trace := { s.trace with rsps := s.trace.rsps ++ [r] } }

/-- R192: the reserved opcode sets `err_cmd`, raises BadCommand, answers (0, 1), and changes nothing else. -/
def Obligations.ReservedSetsErrCmd : Prop :=
  ∀ (arg : Byte) (s : State), exec (.reserved arg) s = .next { s with
    errCmd := true,
    trace := { s.trace with events := s.trace.events ++ [.badCommand], rsps := s.trace.rsps ++ [⟨0#32, true⟩] } }

/-- R211, R212: raising an event makes the recording writes of the event table, and the step continues; R15: the counters
count and stay at 2^32 - 1. -/
def Obligations.RaiseMakesTheRecordingWrites : Prop :=
  (∀ (mask : Mask) (s : State), raise (.fipsFail mask) s = { s with
    lastMask := mask, accMask := s.accMask ||| mask, cntFail := satInc s.cntFail,
    trace := { s.trace with events := s.trace.events ++ [.fipsFail mask] } }) ∧
  (∀ s : State, raise .keyNotReady s = { s with
    cntUnprimed := satInc s.cntUnprimed, trace := { s.trace with events := s.trace.events ++ [.keyNotReady] } }) ∧
  (∀ s : State, raise .badCommand s = { s with
    errCmd := true, trace := { s.trace with events := s.trace.events ++ [.badCommand] } }) ∧
  (∀ c : Word, (satInc c).toNat = min (c.toNat + 1) (2 ^ 32 - 1)) ∧
  (∀ mask, Event.code (.fipsFail mask) = 1) ∧ Event.code .keyNotReady = 2 ∧ Event.code .badCommand = 3

/-- R88: every command gives exactly one response; `rsp_data` is the register value for RD and 0 otherwise, `rsp_err` is 1
for the reserved opcode alone. -/
def Obligations.EveryCommandGivesOneResponse : Prop :=
  ∀ (i : Instr) (s t : State), i.isCommand = true → exec i s = .next t →
    ∃ d e, t.trace.rsps = s.trace.rsps ++ [⟨d, e⟩] ∧ (e = true ↔ ∃ arg, i = .reserved arg) ∧
      (∀ a, i = .rd a → d = reg a s) ∧ ((∀ a, i ≠ .rd a) → d = 0#32)

/-! ### PUSH, PAIR, ACCEPT, DISCARD -/

/-- R100: PUSH is PAIR on bits (0,1), then (2,3), then (4,5), each to completion, then the response (0, 0). -/
def Obligations.PushRunsItsThreePairsInOrder : Prop :=
  ∀ (b : Byte) (s s1 s2 s3 : State),
    exec (.pair (b.getLsbD 0) (b.getLsbD 1)) s = .next s1 → exec (.pair (b.getLsbD 2) (b.getLsbD 3)) s1 = .next s2 →
    exec (.pair (b.getLsbD 4) (b.getLsbD 5)) s2 = .next s3 →
    exec (.push b) s = .next { s3 with trace := { s3.trace with rsps := s3.trace.rsps ++ [⟨0#32, false⟩] } }

/-- R105: bits 7 and 6 of the sample byte are never examined. -/
def Obligations.PushIgnoresBitsSevenAndSix : Prop := ∀ (b : Byte) (s : State), exec (.push b) s = exec (.push (b &&& 0x3F#8)) s

/-- R107, R100, R106: PUSH completes, under the fairness of R254 and R255 (log 6); it accepts one bit for each differing pair
and discards two for each equal one, the cursors move on accordingly, and it runs a block cycle exactly when the accepted
bits reach 8*B. -/
def Obligations.PushMovesTheCursorsByItsPairs : Prop :=
  ∀ (b : Byte) (s : State), s.cursorsInRange → ∃ t, exec (.push b) s = .next t ∧ t.cursorsInRange ∧
    t.ecur = (s.ecur + differingPairs b) % (8 * s.par.B) ∧
    t.pcur = (s.pcur + 2 * (3 - differingPairs b)) % (8 * s.par.L) ∧
    t.primed = (s.primed || decide (8 * s.par.L ≤ s.pcur + 2 * (3 - differingPairs b))) ∧
    t.cntBlocks = if 8 * s.par.B ≤ s.ecur + differingPairs b then satInc s.cntBlocks else s.cntBlocks

/-- What a PUSH leaves unchanged: the parameters, the straps, `err_cmd` and the model's own inputs and counters always; `prev` and
`prev_valid` in encrypted mode, `cnt_unprimed` and the collaborators in whitening mode (R163, R165); the accumulator when no
pair differs, the pool when all do (R102); and, when the block is not filled, everything but the two buffers and their
cursors and `primed`. -/
def Obligations.PushFrame : Prop :=
  ∀ (b : Byte) (s t : State), exec (.push b) s = .next t →
    (t.par = s.par ∧ t.cfgEncrypt = s.cfgEncrypt ∧ t.cfgPolicy = s.cfgPolicy ∧ t.errCmd = s.errCmd ∧ t.past = s.past ∧
      t.pending = s.pending ∧ t.resetDone = s.resetDone ∧ t.draws = s.draws ∧ t.ret = s.ret) ∧
    (s.cfgEncrypt = true → t.prev = s.prev ∧ t.prevValid = s.prevValid) ∧
    (s.cfgEncrypt = false → t.cntUnprimed = s.cntUnprimed ∧ t.trace.hashCalls = s.trace.hashCalls ∧
      t.trace.cipherCalls = s.trace.cipherCalls) ∧
    (differingPairs b = 0 → t.ebuf = s.ebuf ∧ t.eByte = s.eByte ∧ t.eBit = s.eBit) ∧
    (differingPairs b = 3 → t.pool = s.pool ∧ t.pByte = s.pByte ∧ t.pBit = s.pBit ∧ t.primed = s.primed) ∧
    (s.ecur + differingPairs b < 8 * s.par.B → t = { s with
      ebuf := t.ebuf, eByte := t.eByte, eBit := t.eBit, pool := t.pool, pByte := t.pByte, pBit := t.pBit,
      primed := t.primed, trace := { s.trace with rsps := s.trace.rsps ++ [⟨0#32, false⟩] } })

/-- R107 (a), R103, R104, R62: the bits of memory a PUSH leaves: every bit of the pool but the ones at the cursor positions of
its discarded bits; without a block cycle, every bit of `ebuf` but the ones at those of its accepted bits; and nothing at or
beyond the capacity B of `ebuf` and `prev` is ever written. -/
def Obligations.PushLeavesEveryOtherBit : Prop :=
  ∀ (b : Byte) (s t : State), s.ebuf.wf = true → s.pool.wf = true → s.prev.wf = true → exec (.push b) s = .next t →
    (∀ n, (∀ k < 2 * (3 - differingPairs b), n ≠ (s.pcur + k) % (8 * s.par.L)) → t.pool.bitPos n = s.pool.bitPos n) ∧
    (s.ecur + differingPairs b < 8 * s.par.B →
      ∀ n, (∀ k < differingPairs b, n ≠ s.ecur + k) → t.ebuf.bitPos n = s.ebuf.bitPos n) ∧
    (∀ i, s.par.B ≤ i → t.ebuf.read i = s.ebuf.read i ∧ t.prev.read i = s.prev.read i)

/-- R102: a differing pair accepts its first bit and its second bit goes nowhere; an equal pair discards both bits in order;
PAIR completes wherever the cursors are in range. -/
def Obligations.PairFollowsVonNeumann : Prop :=
  ∀ (b0 b1 : Bool) (s : State),
    (b0 ≠ b1 → exec (.pair b0 b1) s = exec (.accept b0) s) ∧
    (b0 ≠ b1 → ∀ t, exec (.pair b0 b1) s = .next t →
      t.pool = s.pool ∧ t.pByte = s.pByte ∧ t.pBit = s.pBit ∧ t.primed = s.primed) ∧
    (b0 = b1 → ∀ u, exec (.discard b0) s = .next u → exec (.pair b0 b1) s = exec (.discard b1) u) ∧
    (s.cursorsInRange → ∃ t, exec (.pair b0 b1) s = .next t)

/-- R103, R106: ACCEPT ORs the bit in at the cursor and leaves every other bit, advances the cursor by one bit, and runs the
block cycle if and only if the byte index has reached B. -/
def Obligations.AcceptWritesTheCursorBit : Prop :=
  ∀ (bit : Bool) (s : State), s.ebuf.wf = true → s.eByte < s.par.B →
    ∃ (m : Memory) (byte : Nat) (k : Fin 8), 8 * byte + k.val = s.ecur + 1 ∧
      (∀ n, m.bitPos n = if n = s.ecur then (s.ebuf.bitPos n || bit) else s.ebuf.bitPos n) ∧
      exec (.accept bit) s =
        (if byte ≥ s.par.B then exec .blockCycle { s with ebuf := m, eByte := byte, eBit := k }
          else .next { s with ebuf := m, eByte := byte, eBit := k }) ∧
      ∃ t, exec (.accept bit) s = .next t

/-- R104: DISCARD replaces the bit at the cursor and leaves every other bit and every other element, advances the cursor
modulo 8*L, and sets `primed` on the wrap. -/
def Obligations.DiscardReplacesTheCursorBit : Prop :=
  ∀ (bit : Bool) (s : State), s.pool.wf = true → s.pByte < s.par.L →
    ∃ (m : Memory) (byte : Nat) (k : Fin 8),
      exec (.discard bit) s = .next { s with
        pool := m, pByte := byte, pBit := k, primed := s.primed || decide (s.pcur + 1 = 8 * s.par.L) } ∧
      8 * byte + k.val = (s.pcur + 1) % (8 * s.par.L) ∧
      ∀ n, m.bitPos n = if n = s.pcur then bit else s.pool.bitPos n

/-- R26, 90_conflicts.md C2: from reset, `primed` becomes true with the 8*L-th discarded bit and stays true. -/
def Obligations.PoolIsPrimedByTheLastBitOfAFill : Prop :=
  ∀ (p : Params) (enc pol : Bool) (bs : List Bool), p.valid = true →
    ∃ t, discardAll bs (State.resetOf p enc pol) = .next t ∧ t.primed = decide (8 * p.L ≤ bs.length) ∧
      t.pcur = bs.length % (8 * p.L)

/-- R24, R104: from reset, the pool holds the latest 8*L discarded bits, each where the ring puts it. -/
def Obligations.PoolHoldsTheLatestDiscardedBits : Prop :=
  ∀ (p : Params) (enc pol : Bool) (bs : List Bool), p.valid = true →
    ∃ t, discardAll bs (State.resetOf p enc pol) = .next t ∧
      ∀ n, n < bs.length → bs.length ≤ n + 8 * p.L → t.pool.bitPos (n % (8 * p.L)) = bs.getD n false

/-- R107 (d), R132, R106: 8*B accepted bits from an empty accumulator run exactly one block cycle, with the last bit, on the
block whose flat bit sequence is the accepted bits in the order they were accepted. -/
def Obligations.AcceptedBitsFormTheBlockInOrder : Prop :=
  ∀ (s : State) (bs : List Bool), s.Ready → s.clearBeyondCursor → s.ecur = 0 → bs.length = 8 * s.par.B →
    ∃ m : Memory, acceptAll bs s = exec .blockCycle { s with ebuf := m, eByte := s.par.B, eBit := 0 } ∧
      flat (m.block s.par.B) = bs

/-! ### FIPSValidator -/

/-- R130, R138, R139: FIPS completes; bit k of its mask is what sub-test k returns, all five being evaluated; the carried
state becomes the block's run extremes whatever the mask; each sub-test completes and changes nothing. -/
def Obligations.FipsGivesTheFiveVerdicts : Prop :=
  ∀ (blk : Block) (s : State), blk.length = s.par.B → ∃ (m : Mask) (ext : Extremes), IsExtremes (flat blk) ext ∧
    exec (.fips blk) s = .next { s with fcValid := true, fcLen := ext.len, fcPos := ext.pos, ret := .mask m } ∧
    exec (.monobit blk) s = .next { s with ret := .failed (m.getLsbD 0) } ∧
    exec (.poker blk) s = .next { s with ret := .failed (m.getLsbD 1) } ∧
    exec (.runs blk) s = .next { s with ret := .failed (m.getLsbD 2) } ∧
    exec (.longrun blk) s = .next { s with ret := .failed (m.getLsbD 3) } ∧
    exec (.contrun blk) s = .next { s with ret := .failed (m.getLsbD 4) }

/-- R132: `s[8*i + k] = blk[i][k]`, 8*B bits. -/
def Obligations.FlatSequenceIsTheBitsInOrder : Prop :=
  ∀ blk : Block, (flat blk).length = 8 * blk.length ∧
    ∀ i k, i < blk.length → k < 8 → (flat blk)[8 * i + k]? = some ((blk.getD i 0x00#8).getLsbD k)

/-- R133: MONOBIT fails iff the number of 1 bits of the block is outside its bounds. -/
def Obligations.MonobitBoundsTheOnes : Prop :=
  ∀ (blk : Block) (s : State), blk.length = s.par.B → ∃ m, exec (.monobit blk) s = .next { s with ret := .failed m } ∧
    (m = true ↔ ¬ (s.par.FB.monoMin ≤ ∑ t ∈ Finset.range (8 * s.par.B), ((blk.getD (t / 8) 0x00#8).getLsbD (t % 8)).toNat ∧
      ∑ t ∈ Finset.range (8 * s.par.B), ((blk.getD (t / 8) 0x00#8).getLsbD (t % 8)).toNat ≤ s.par.FB.monoMax))

/-- R134: POKER fails iff the sum of the squares of the nibble frequencies is outside its bounds; nibble 2i is the low half
of byte i, nibble 2i+1 the high half. -/
def Obligations.PokerBoundsTheSquares : Prop :=
  ∀ (blk : Block) (s : State) (nib : Nat → Nat) (f : Nat → Nat), blk.length = s.par.B →
    (∀ i < s.par.B, nib (2 * i) = (blk.getD i 0x00#8).toNat % 16 ∧ nib (2 * i + 1) = (blk.getD i 0x00#8).toNat / 16) →
    (∀ w < 16, f w = ((Finset.range (2 * s.par.B)).filter fun j => nib j = w).card) →
    ∃ m, exec (.poker blk) s = .next { s with ret := .failed m } ∧
      (m = true ↔ ¬ (s.par.FB.pokerMin ≤ ∑ w ∈ Finset.range 16, f w ^ 2 ∧ ∑ w ∈ Finset.range 16, f w ^ 2 ≤ s.par.FB.pokerMax))

/-- R135: the list of runs is exactly the maximal stretches of the sequence, in order of their starts, and their lengths sum
to the length of the sequence. -/
def Obligations.RunsAreTheMaximalStretches : Prop :=
  ∀ s : List Bool, (∀ v start len, ⟨v, start, len⟩ ∈ runsOf s ↔ IsRun s v start len) ∧
    (runsOf s).Pairwise (fun a b => a.start < b.start) ∧ ((runsOf s).map Run.len).sum = s.length

/-- R135: RUNS fails iff, for some value v and some k = 1..6, the number of runs of value v and length k (6 meaning 6 or
longer) is outside its bounds. -/
def Obligations.RunsTestBoundsEveryBucket : Prop :=
  ∀ (blk : Block) (s : State), blk.length = s.par.B → ∃ m, exec (.runs blk) s = .next { s with ret := .failed m } ∧
    (m = true ↔ ∃ (v : Bool) (k : Fin 6),
      ¬ (s.par.FB.runMin[k] ≤ ((runsOf (flat blk)).filter fun r => r.v = v ∧ min r.len 6 = k.val + 1).length ∧
        ((runsOf (flat blk)).filter fun r => r.v = v ∧ min r.len 6 = k.val + 1).length ≤ s.par.FB.runMax[k]))

/-- R136: LONGRUN fails iff some run, of either value, is longer than LONGRUN_MAX. -/
def Obligations.LongrunFindsAnyLongRun : Prop :=
  ∀ (blk : Block) (s : State), blk.length = s.par.B → ∃ m, exec (.longrun blk) s = .next { s with ret := .failed m } ∧
    (m = true ↔ ∃ v start len, IsRun (flat blk) v start len ∧ s.par.FB.longrunMax < len)

/-- R137: CONTRUN fails iff the carried state is valid and for some value with a run the block's extreme length and position
are the carried ones. -/
def Obligations.ContrunComparesTheExtremes : Prop :=
  ∀ (blk : Block) (s : State), blk.length = s.par.B → ∃ (ext : Extremes) (m : Bool), IsExtremes (flat blk) ext ∧
    exec (.contrun blk) s = .next { s with ret := .failed m } ∧
    (m = true ↔ s.fcValid = true ∧ ∃ v, 0 < ext.len.get v ∧ ext.len.get v = s.fcLen.get v ∧ ext.pos.get v = s.fcPos.get v)

/-- R137, 95_test_vectors.md V20b and V27: the first block after reset cannot fail the continuous-run test, and the same
block twice in a row fails it the second time. -/
def Obligations.RepeatedBlockFailsContrun : Prop :=
  ∀ (blk : Block) (s : State), blk.length = s.par.B → 1 ≤ s.par.B → ∃ t u m n,
    exec (.fips blk) s = .next t ∧ t.ret = .mask m ∧ exec (.fips blk) t = .next u ∧ u.ret = .mask n ∧
      (s.fcValid = false → m.getLsbD 4 = false) ∧ n.getLsbD 4 = true

/-! ### The block cycle and OutputEncoder -/

/-- R161, R170: the complete list of what a failing block changes; `ebuf` is cleared and nothing is emitted. -/
def Obligations.FailingBlockIsDiscarded : Prop :=
  ∀ (s : State) (mask : Mask), s.ebuf.wf = true → Fips (s.ebuf.block s.par.B) s mask → mask ≠ 0#5 →
    ∃ (m : Memory) (ext : Extremes), IsExtremes (flat (s.ebuf.block s.par.B)) ext ∧
      exec .blockCycle s = .next { s with
        lastMask := mask, lastValid := true, accMask := s.accMask ||| mask, cntBlocks := satInc s.cntBlocks,
        cntFail := satInc s.cntFail, fcValid := true, fcLen := ext.len, fcPos := ext.pos, ebuf := m, eByte := 0, eBit := 0,
        trace := { s.trace with events := s.trace.events ++ [.fipsFail mask] } } ∧
      ∀ i, m.read i = if i < s.par.B then 0x00#8 else s.ebuf.read i

/-- R160: the block cycle of a passing block records the verdict, encodes the block, and clears `ebuf`. -/
def Obligations.PassingBlockIsEncoded : Prop :=
  ∀ s : State, s.ebuf.wf = true → Fips (s.ebuf.block s.par.B) s 0#5 →
    ∃ (m : Memory) (ext : Extremes) (u : State), IsExtremes (flat (s.ebuf.block s.par.B)) ext ∧
      exec (.encode (s.ebuf.block s.par.B)) { s with
        lastMask := 0#5, lastValid := true, cntBlocks := satInc s.cntBlocks, fcValid := true, fcLen := ext.len,
        fcPos := ext.pos } = .next u ∧
      exec .blockCycle s = .next { u with ebuf := m, eByte := 0, eBit := 0 } ∧
      ∀ i, m.read i = if i < s.par.B then 0x00#8 else s.ebuf.read i

/-- R162: ENCODE is WHITEN in whitening mode and ENCRYPT in encrypted mode; it completes. -/
def Obligations.EncodeDispatchesOnTheMode : Prop :=
  ∀ (blk : Block) (s : State),
    (s.cfgEncrypt = false → exec (.encode blk) s = exec (.whiten blk) s) ∧
    (s.cfgEncrypt = true → exec (.encode blk) s = exec (.encrypt blk) s) ∧
    (blk.length = s.par.B → ∃ t, exec (.encode blk) s = .next t)

/-- R163, R164: the first passing block only seeds `prev`; a later one is emitted XORed with `prev`, byte by byte, and
counted, and `prev` becomes the block itself. -/
def Obligations.WhitenSeedsThenEmitsTheXor : Prop :=
  ∀ (blk : Block) (s : State), s.prev.wf = true → blk.length = s.par.B →
    ∃ m : Memory, (∀ i, m.read i = if i < s.par.B then blk.getD i 0x00#8 else s.prev.read i) ∧
      (s.prevValid = false → exec (.whiten blk) s = .next { s with prev := m, prevValid := true }) ∧
      (s.prevValid = true → ∃ o : Block, o.length = s.par.B ∧
        (∀ i < s.par.B, o.getD i 0x00#8 = blk.getD i 0x00#8 ^^^ s.prev.read i) ∧
        exec (.whiten blk) s = .next { s with
          prev := m, cntEmit := satInc s.cntEmit, trace := { s.trace with out := s.trace.out ++ o } })

/-- R163's corner case: XOR of an emitted block with the previous passing block recovers the block. -/
def Obligations.WhitenedOutputRecoversTheBlock : Prop :=
  ∀ (blk : Block) (s : State), blk.length = s.par.B → s.prevValid = true →
    ∃ t, exec (.whiten blk) s = .next t ∧
      List.zipWith (· ^^^ ·) (t.trace.out.drop s.trace.out.length) ((List.range s.par.B).map s.prev.read) = blk

/-- R165, R166, R168, R71: with a primed pool ENCRYPT presents the L pool bytes to HASH, the whole digest and the block to
CIPHER, and emits the CLEN bytes; unprimed it is UNPRIMED. It changes nothing else. -/
def Obligations.EncryptUsesTheHashOfThePool : Prop :=
  ∀ (blk : Block) (s : State),
    (blk.length = s.par.B → s.primed = true → ∃ key ct : Block,
      key = hashOf s.par ((List.range s.par.L).map s.pool.read) ∧ key.length = s.par.DLEN ∧
      ct = cipherOf s.par key blk ∧ ct.length = s.par.CLEN ∧
      exec (.encrypt blk) s = .next { s with
        cntEmit := satInc s.cntEmit,
        trace := { s.trace with
          out := s.trace.out ++ ct, hashCalls := s.trace.hashCalls ++ [(List.range s.par.L).map s.pool.read],
          cipherCalls := s.trace.cipherCalls ++ [⟨key, blk⟩] } }) ∧
    (s.primed = false → exec (.encrypt blk) s = exec (.unprimed blk) s)

/-- R166: KEYDERIVE returns the hash of the L pool bytes in index order and changes neither the pool nor its cursor nor
`primed`. -/
def Obligations.KeyDeriveHashesTheWholePool : Prop :=
  ∀ s : State, ∃ key : Block, key = hashOf s.par ((List.range s.par.L).map s.pool.read) ∧ key.length = s.par.DLEN ∧
    exec .keyDerive s = .next { s with
      ret := .key key, trace := { s.trace with hashCalls := s.trace.hashCalls ++ [(List.range s.par.L).map s.pool.read] } }

/-- R167: UNPRIMED counts and raises KeyNotReady, then drops the block or emits its B bytes as they are, by `cfg_policy`. -/
def Obligations.UnprimedDropsOrPasses : Prop :=
  ∀ (blk : Block) (s : State), blk.length = s.par.B →
    (s.cfgPolicy = false → exec (.unprimed blk) s = .next { s with
      cntUnprimed := satInc s.cntUnprimed, trace := { s.trace with events := s.trace.events ++ [.keyNotReady] } }) ∧
    (s.cfgPolicy = true → exec (.unprimed blk) s = .next { s with
      cntUnprimed := satInc s.cntUnprimed, cntEmit := satInc s.cntEmit,
      trace := { s.trace with out := s.trace.out ++ blk, events := s.trace.events ++ [.keyNotReady] } })

/-- The model's stops in `exec` (log 10, log 11): ACCEPT and DISCARD stop where their cursors are outside B and L, and a
block operand that is no Byte^B is refused by name. -/
def Obligations.ExecStopsOutsideTheSpecByName : Prop :=
  (∀ (bit : Bool) (s : State), s.par.B ≤ s.eByte → exec (.accept bit) s = .fault .ebufCursor) ∧
  (∀ (bit : Bool) (s : State), s.par.L ≤ s.pByte → exec (.discard bit) s = .fault .poolCursor) ∧
  (∀ (i : Instr) (blk : Block) (s : State), i.block? = some blk → blk.length ≠ s.par.B → exec i s = .refused .blockLength)

/-- R106, R166: when the first pair of a sample byte fills the block, the key is derived from the pool as it stood before
the byte's later pairs; when the second pair fills it, from the pool as the first pair left it and before the third. The
later pairs call no core and emit nothing. -/
def Obligations.KeyIsTakenBeforeTheLaterPairs : Prop :=
  ∀ (b : Byte) (s : State), s.Ready →
    (s.ecur + 1 = 8 * s.par.B → b.getLsbD 0 ≠ b.getLsbD 1 →
      ∃ u t, exec (.accept (b.getLsbD 0)) s = .next u ∧ exec (.push b) s = .next t ∧
        u.pool = s.pool ∧ t.trace.out = u.trace.out ∧ t.trace.hashCalls = u.trace.hashCalls ∧
        t.trace.cipherCalls = u.trace.cipherCalls ∧
        (u.trace.hashCalls ≠ s.trace.hashCalls →
          u.trace.hashCalls = s.trace.hashCalls ++ [(List.range s.par.L).map s.pool.read])) ∧
    (s.ecur + (b.getLsbD 0 != b.getLsbD 1).toNat + 1 = 8 * s.par.B → b.getLsbD 2 ≠ b.getLsbD 3 →
      ∃ v u t, exec (.pair (b.getLsbD 0) (b.getLsbD 1)) s = .next v ∧ exec (.accept (b.getLsbD 2)) v = .next u ∧
        exec (.push b) s = .next t ∧ v.trace.hashCalls = s.trace.hashCalls ∧ v.trace.cipherCalls = s.trace.cipherCalls ∧
        v.trace.out = s.trace.out ∧ u.pool = v.pool ∧ t.trace.out = u.trace.out ∧
        t.trace.hashCalls = u.trace.hashCalls ∧ t.trace.cipherCalls = u.trace.cipherCalls ∧
        (u.trace.hashCalls ≠ v.trace.hashCalls →
          u.trace.hashCalls = v.trace.hashCalls ++ [(List.range s.par.L).map v.pool.read]))

/-! ### Whole-machine rules -/

/-- R217: a transaction raises at most one event: NOP and RD none, the reserved opcode BadCommand, PUSH at most one FipsFail
or KeyNotReady. -/
def Obligations.AtMostOneEventPerTransaction : Prop :=
  ∀ (w : CmdWord) (s t : State), s.cursorsInRange → exec (decode w) s = .next t →
    (∀ a, decode w = .nop a ∨ decode w = .rd a → t.trace.events = s.trace.events) ∧
    (∀ a, decode w = .reserved a → t.trace.events = s.trace.events ++ [.badCommand]) ∧
    (∀ b, decode w = .push b → t.trace.events = s.trace.events ∨ t.trace.events = s.trace.events ++ [.keyNotReady] ∨
      ∃ mask, mask ≠ 0#5 ∧ t.trace.events = s.trace.events ++ [.fipsFail mask])

/-- R26, R28, R29, R40, R42 to R44, R46: no command clears `primed`, `prev_valid`, `fc_valid`, `last_valid` or `err_cmd`,
takes a bit out of `acc_mask`, lowers a counter, or changes the mode, the policy or the parameters. -/
def Obligations.OnlyResetClearsStickyState : Prop :=
  ∀ (i : Instr) (s t : State), i.isCommand = true → exec i s = .next t →
    (s.primed = true → t.primed = true) ∧ (s.prevValid = true → t.prevValid = true) ∧
    (s.fcValid = true → t.fcValid = true) ∧ (s.lastValid = true → t.lastValid = true) ∧
    (s.errCmd = true → t.errCmd = true) ∧ s.accMask &&& t.accMask = s.accMask ∧
    s.cntBlocks.toNat ≤ t.cntBlocks.toNat ∧ s.cntFail.toNat ≤ t.cntFail.toNat ∧ s.cntEmit.toNat ≤ t.cntEmit.toNat ∧
    s.cntUnprimed.toNat ≤ t.cntUnprimed.toNat ∧ t.cfgEncrypt = s.cfgEncrypt ∧ t.cfgPolicy = s.cfgPolicy ∧ t.par = s.par

/-- R169, R67: a command run on another pool gives the same next state but for the pool, if the mode is whitening or the
command makes no hash call. If it makes one, the two runs differ, beside the pool, only in the bytes shown to the hash, in the
key shown to the cipher, which is the hash of those bytes, and in the bytes emitted, which are what the cipher gives for that
key and one and the same block; so they emit the same where the hash agrees on what it is shown. -/
def Obligations.PoolReachesOnlyTheHash : Prop :=
  ∀ (i : Instr) (s t : State) (m : Memory), i.isCommand = true → exec i s = .next t →
    (s.cfgEncrypt = false ∨ t.trace.hashCalls = s.trace.hashCalls →
      ∃ m', exec i { s with pool := m } = .next { t with pool := m' }) ∧
    (t.trace.hashCalls ≠ s.trace.hashCalls → ∃ (m' : Memory) (u u' blk : Block),
      u.length = s.par.L ∧ u'.length = s.par.L ∧ blk.length = s.par.B ∧
      t.trace.out = s.trace.out ++ cipherOf s.par (hashOf s.par u) blk ∧
      t.trace.hashCalls = s.trace.hashCalls ++ [u] ∧
      t.trace.cipherCalls = s.trace.cipherCalls ++ [⟨hashOf s.par u, blk⟩] ∧
      exec i { s with pool := m } = .next { t with
        pool := m',
        trace := { t.trace with
          out := s.trace.out ++ cipherOf s.par (hashOf s.par u') blk,
          hashCalls := s.trace.hashCalls ++ [u'],
          cipherCalls := s.trace.cipherCalls ++ [⟨hashOf s.par u', blk⟩] } })

/-- R160, R166, R165: BLOCK_CYCLE completes from every state, counts, records its mask and empties the accumulator, and ACCEPT
completes wherever its precondition holds (both under the fairness of R254 and R255, log 6); neither writes `primed`, and each
calls the hash or the cipher only where the mode is encrypted and the pool is primed already. DISCARD calls neither. So a
command calls them only in encrypted mode, and ends with the pool primed if it does. -/
def Obligations.NoKeyBeforeThePoolIsPrimed : Prop :=
  (∀ s : State, ∃ t, exec .blockCycle s = .next t ∧ t.ecur = 0 ∧ t.cntBlocks = satInc s.cntBlocks ∧ t.lastValid = true ∧
    t.accMask = s.accMask ||| t.lastMask ∧ t.primed = s.primed ∧
    (t.trace.hashCalls ≠ s.trace.hashCalls ∨ t.trace.cipherCalls ≠ s.trace.cipherCalls →
      s.cfgEncrypt = true ∧ s.primed = true)) ∧
  (∀ (bit : Bool) (s : State), s.eByte < s.par.B → ∃ t, exec (.accept bit) s = .next t ∧ t.primed = s.primed ∧
    (t.trace.hashCalls ≠ s.trace.hashCalls ∨ t.trace.cipherCalls ≠ s.trace.cipherCalls →
      s.cfgEncrypt = true ∧ s.primed = true)) ∧
  (∀ (bit : Bool) (s t : State), exec (.discard bit) s = .next t →
    t.trace.hashCalls = s.trace.hashCalls ∧ t.trace.cipherCalls = s.trace.cipherCalls) ∧
  (∀ (i : Instr) (s t : State), i.isCommand = true → exec i s = .next t →
    t.trace.hashCalls ≠ s.trace.hashCalls ∨ t.trace.cipherCalls ≠ s.trace.cipherCalls →
    s.cfgEncrypt = true ∧ t.primed = true)

/-! ### Invariants -/

/-- Every invariant below holds right after reset. -/
def Obligations.InvariantsHoldAfterReset : Prop :=
  ∀ (p : Params) (enc pol : Bool), p.valid = true → ∃ s, s = State.resetOf p enc pol ∧ s.Ready ∧ s.clearBeyondCursor ∧
    s.poolPaired ∧ s.modesExclusive ∧ s.verdictOk ∧ s.carriedInRange ∧ s.countersAddUp ∧ s.outputInBlocks

/-- R22, R25, R63: every step keeps the cursors in range and the memories in canonical form and within their bounds. -/
def Obligations.StepKeepsCursorsAndMemories : Prop := ∀ s t : State, s.Inv → step s = .next t → t.Inv

/-- R23 (b): every step keeps every bit of `ebuf` at or beyond the cursor 0. -/
def Obligations.StepKeepsEbufClearBeyondItsCursor : Prop :=
  ∀ s t : State, s.Inv → s.clearBeyondCursor → step s = .next t → t.clearBeyondCursor

/-- R104's corner case, 95_test_vectors.md V50: every step keeps the pool in equal pairs. -/
def Obligations.StepKeepsThePoolPaired : Prop := ∀ s t : State, s.Inv → s.poolPaired → step s = .next t → t.poolPaired

/-- R27, R28, R29, R42, R43, R44: every step keeps the two modes' state apart and the verdict registers consistent. -/
def Obligations.StepKeepsModesAndVerdicts : Prop :=
  ∀ s t : State, s.modesExclusive → s.verdictOk → step s = .next t → t.modesExclusive ∧ t.verdictOk

/-- R29: every step keeps the carried lengths and positions within 8*B. -/
def Obligations.StepKeepsCarriedStateInRange : Prop :=
  ∀ s t : State, s.carriedInRange → step s = .next t → t.carriedInRange

/-- R44, R163, R164, R165, R167: every step keeps the counters adding up, and nothing emitted in whitening mode before `prev`
is seeded, so that K passing blocks in whitening mode give K-1 emitted blocks. -/
def Obligations.StepKeepsCountersAddingUp : Prop :=
  ∀ s t : State, s.countersAddUp → step s = .next t → t.countersAddUp ∧
    (t.cfgEncrypt = false → t.cntBlocks.toNat < 2 ^ 32 - 1 → t.cntFail.toNat < t.cntBlocks.toNat →
      t.cntEmit.toNat + 1 = t.cntBlocks.toNat - t.cntFail.toNat)

/-- R171, R70: in whitening mode every step keeps the output stream `cnt_emit` blocks of B bytes long. -/
def Obligations.StepKeepsOutputInWholeBlocks : Prop := ∀ s t : State, s.outputInBlocks → step s = .next t → t.outputInBlocks

/-- R227, R63, R221: from a state in form no host input, and no number of them, makes ECB stop, under the fairness of R254
and R255 (log 6). -/
def Obligations.ReadyMachineNeverStops : Prop := ∀ (k : Nat) (s : State), s.Ready → ∃ t, steps k s = .next t ∧ t.Ready
end

