-- ==== Sys2Proof/Laws/Memory.lean ====
section
/-! SUPPORT. The laws of the byte memories: read over write, the canonical form kept by every operation, whole blocks, and
single bits. -/

namespace Sys2Proof.Machine

theorem Memory.read_cons (m : Memory) (a : Nat) (v : Byte) (i : Nat) (h : ∀ c ∈ m, a < c.1) :
    Memory.read (Memory.cons a v m) i = if i = a then v else Memory.read m i := by
  have hout : ∀ (m : Memory), (∀ c ∈ m, a < c.1) → Memory.read m a = Memory.unlisted := by
    intro m hm
    induction m with
    | nil => rfl
    | cons d m ih =>
      have hd := hm d (by simp)
      simp [Memory.read, Nat.ne_of_gt hd, ih fun c hc => hm c (by simp [hc])]
  unfold Memory.cons
  split
  · next hv => by_cases hi : i = a <;> simp [hi, hv, hout m h]
  · by_cases hi : i = a
    · simp [Memory.read, hi]
    · simp [Memory.read, hi, Ne.symm hi]

/-- The tail of a memory in form lies above its head. -/
theorem Memory.wf_cons_iff (c : Host.Cell) (m : Memory) :
    Memory.wf (c :: m) = true ↔ c.2 ≠ Memory.unlisted ∧ (∀ d ∈ m, c.1 < d.1) ∧ Memory.wf m = true := by
  simp [Memory.wf, and_assoc]

theorem Memory.mem_cons {i : Nat} {v : Byte} {m : Memory} {c : Host.Cell} (h : c ∈ Memory.cons i v m) :
    c = (i, v) ∨ c ∈ m := by
  unfold Memory.cons at h
  split at h
  · exact .inr h
  · simpa using h

theorem Memory.mem_write {m : Memory} {i : Nat} {v : Byte} {c : Host.Cell} (h : c ∈ m.write i v) :
    c.1 = i ∨ c ∈ m := by
  induction m with
  | nil => rcases Memory.mem_cons h with rfl | h <;> simp_all
  | cons d m ih =>
    unfold Memory.write at h
    split at h
    · rcases Memory.mem_cons h with rfl | h <;> simp_all
    · split at h
      · rcases Memory.mem_cons h with rfl | h <;> simp_all
      · simp only [List.mem_cons] at h ⊢
        rcases h with rfl | h
        · exact .inr (.inl rfl)
        · rcases ih h with h | h <;> simp [h]

theorem Memory.wf_cons {i : Nat} {v : Byte} {m : Memory} (hm : Memory.wf m = true) (h : ∀ d ∈ m, i < d.1) :
    Memory.wf (Memory.cons i v m) = true := by
  unfold Memory.cons
  split
  · exact hm
  · exact (Memory.wf_cons_iff _ _).2 ⟨by assumption, h, hm⟩

/-- A write keeps the canonical form. -/
theorem Memory.wf_write {m : Memory} (i : Nat) (v : Byte) (h : Memory.wf m = true) : Memory.wf (m.write i v) = true := by
  induction m with
  | nil => exact Memory.wf_cons rfl (by simp)
  | cons c m ih =>
    obtain ⟨hc, hlt, hm⟩ := (Memory.wf_cons_iff _ _).1 h
    unfold Memory.write
    split
    · next hi =>
      refine Memory.wf_cons h fun d hd => ?_
      rcases List.mem_cons.1 hd with rfl | hd
      · exact hi
      · exact Nat.lt_trans hi (hlt d hd)
    · split
      · next hi => exact Memory.wf_cons hm fun d hd => hi ▸ hlt d hd
      · next h1 h2 =>
        refine (Memory.wf_cons_iff _ _).2 ⟨hc, fun d hd => ?_, ih hm⟩
        rcases Memory.mem_write hd with hd | hd
        · omega
        · exact hlt d hd

/-- A read after a write: the value at the place written, and every other place as before. -/
theorem Memory.read_write {m : Memory} (i : Nat) (v : Byte) (j : Nat) (h : Memory.wf m = true) :
    (m.write i v).read j = if j = i then v else m.read j := by
  induction m with
  | nil => exact Memory.read_cons [] i v j (by simp)
  | cons c m ih =>
    obtain ⟨_, hlt, hm⟩ := (Memory.wf_cons_iff _ _).1 h
    unfold Memory.write
    split
    · next hi =>
      refine Memory.read_cons _ _ _ _ fun d hd => ?_
      rcases List.mem_cons.1 hd with rfl | hd
      · exact hi
      · exact Nat.lt_trans hi (hlt d hd)
    · split
      · next hi =>
        rw [Memory.read_cons _ _ _ _ fun d hd => hi ▸ hlt d hd]
        by_cases hj : j = i
        · simp [hj]
        · have : ¬ c.1 = j := fun h' => hj (h'.symm.trans hi.symm)
          simp [hj, Memory.read, this]
      · next h1 h2 =>
        by_cases hj : c.1 = j
        · have : ¬ j = i := fun h' => h2 (h'.symm.trans hj.symm)
          simp [Memory.read, hj, this]
        · simp [Memory.read, hj, ih hm]

@[simp] theorem Memory.read_nil (i : Nat) : Memory.read [] i = 0x00#8 := rfl

/-- Memories in form that read alike everywhere are the same list. -/
theorem Memory.ext_of_read {m n : Memory} (hm : Memory.wf m = true) (hn : Memory.wf n = true)
    (h : ∀ i, m.read i = n.read i) : m = n := by
  have above : ∀ (a : Nat) (m : Memory), (∀ d ∈ m, a < d.1) → m.read a = Memory.unlisted := by
    intro a m hm
    induction m with
    | nil => rfl
    | cons d m ih => simp [Memory.read, Nat.ne_of_gt (hm d (by simp)), ih fun c hc => hm c (by simp [hc])]
  induction m generalizing n with
  | nil =>
    cases n with
    | nil => rfl
    | cons d n =>
      exact absurd (by simpa [Memory.read] using (h d.1).symm) ((Memory.wf_cons_iff _ _).1 hn).1
  | cons c m ih =>
    obtain ⟨hc, hlt, hm'⟩ := (Memory.wf_cons_iff _ _).1 hm
    cases n with
    | nil => exact absurd (by simpa [Memory.read] using h c.1) hc
    | cons d n =>
      obtain ⟨hd, hlt', hn'⟩ := (Memory.wf_cons_iff _ _).1 hn
      have hcd : c.1 = d.1 := by
        rcases Nat.lt_trichotomy c.1 d.1 with hl | he | hl
        · refine absurd ?_ hc
          have := h c.1
          rwa [above c.1 (d :: n) (by
            intro e he
            rcases List.mem_cons.1 he with rfl | he
            · exact hl
            · exact Nat.lt_trans hl (hlt' e he)), Memory.read, if_pos rfl] at this
        · exact he
        · refine absurd ?_ hd
          have := h d.1
          rw [above d.1 (c :: m) (by
            intro e he
            rcases List.mem_cons.1 he with rfl | he
            · exact hl
            · exact Nat.lt_trans hl (hlt e he)), Memory.read, if_pos rfl] at this
          exact this.symm
      have hv : c.2 = d.2 := by simpa [Memory.read, hcd] using h c.1
      have hcell : c = d := Prod.ext hcd hv
      subst hcell
      congr 1
      refine ih hm' hn' fun i => ?_
      by_cases hi : c.1 = i
      · subst hi; rw [above _ _ hlt, above _ _ hlt']
      · simpa [Memory.read, hi] using h i

theorem Memory.below_iff (n : Nat) (m : Memory) : m.below n = true ↔ ∀ c ∈ m, c.1 < n := by simp [Memory.below]

/-- A write inside a memory of `n` bytes lists nothing outside it. -/
theorem Memory.below_write {m : Memory} {n i : Nat} (v : Byte) (hi : i < n) (h : m.below n = true) :
    (m.write i v).below n = true := by
  rw [Memory.below_iff] at h ⊢
  intro c hc
  rcases Memory.mem_write hc with rfl | hc
  · exact hi
  · exact h c hc

/-- Outside its bytes a memory reads as an unlisted address. -/
theorem Memory.read_of_below {m : Memory} {n i : Nat} (h : m.below n = true) (hi : n ≤ i) : m.read i = 0x00#8 := by
  rw [Memory.below_iff] at h
  induction m with
  | nil => rfl
  | cons c m ih =>
    have hc := h c (by simp)
    simp [Memory.read, Nat.ne_of_lt (Nat.lt_of_lt_of_le hc hi), ih fun d hd => h d (by simp [hd])]

/-! ### Whole blocks -/

theorem Memory.wf_writeFrom {m : Memory} (i : Nat) (bs : Block) (h : Memory.wf m = true) :
    Memory.wf (m.writeFrom i bs) = true := by
  induction bs generalizing m i with
  | nil => exact h
  | cons b bs ih => exact ih _ (Memory.wf_write i b h)

theorem Memory.below_writeFrom {m : Memory} {n i : Nat} {bs : Block} (hi : i + bs.length ≤ n) (h : m.below n = true) :
    (m.writeFrom i bs).below n = true := by
  induction bs generalizing m i with
  | nil => exact h
  | cons b bs ih =>
    simp only [List.length_cons] at hi
    exact ih (by omega) (Memory.below_write b (by omega) h)

theorem Memory.read_writeFrom {m : Memory} (i : Nat) (bs : Block) (j : Nat) (h : Memory.wf m = true) :
    (m.writeFrom i bs).read j = if i ≤ j ∧ j < i + bs.length then bs.getD (j - i) 0x00#8 else m.read j := by
  induction bs generalizing m i with
  | nil => simp [Memory.writeFrom]
  | cons b bs ih =>
    simp only [Memory.writeFrom, ih (i + 1) (Memory.wf_write i b h), Memory.read_write i b j h, List.length_cons]
    by_cases hj : j = i
    · subst hj; simp
    · by_cases h1 : i + 1 ≤ j ∧ j < i + 1 + bs.length
      · have : j - i = j - (i + 1) + 1 := by omega
        rw [if_pos h1, if_pos (by omega), this, List.getD_cons_succ]
      · rw [if_neg h1, if_neg hj, if_neg (by omega)]

theorem Memory.wf_writeBlock {m : Memory} (bs : Block) (h : Memory.wf m = true) : Memory.wf (m.writeBlock bs) = true :=
  Memory.wf_writeFrom 0 bs h

theorem Memory.below_writeBlock {m : Memory} {n : Nat} {bs : Block} (hb : bs.length ≤ n) (h : m.below n = true) :
    (m.writeBlock bs).below n = true := Memory.below_writeFrom (by omega) h

theorem Memory.read_writeBlock {m : Memory} (bs : Block) (j : Nat) (h : Memory.wf m = true) :
    (m.writeBlock bs).read j = if j < bs.length then bs.getD j 0x00#8 else m.read j := by
  simpa [Memory.writeBlock] using Memory.read_writeFrom 0 bs j h

@[simp] theorem Memory.block_length (n : Nat) (m : Memory) : (m.block n).length = n := by simp [Memory.block]

theorem Memory.block_getD (n : Nat) (m : Memory) (i : Nat) (hi : i < n) : (m.block n).getD i 0x00#8 = m.read i := by
  simp [Memory.block, List.getD, hi]

/-- A block reads back as it was written. -/
theorem Memory.block_writeBlock {m : Memory} (bs : Block) (h : Memory.wf m = true) :
    (m.writeBlock bs).block bs.length = bs := by
  refine List.ext_getElem (by simp) fun i h1 h2 => ?_
  have hi : i < bs.length := h2
  simp [Memory.block, Memory.read_writeBlock bs i h, hi]

/-! ### Single bits -/

theorem getLsbD_bitAt (bit : Bool) (k : Fin 8) (j : Nat) : (bitAt bit k).getLsbD j = (decide (j = k.val) && bit) := by
  have hk := k.isLt
  rcases Nat.lt_trichotomy j k.val with hl | he | hl
  · simp [bitAt, hl, Nat.ne_of_lt hl]
  · subst he; cases bit <;> simp [bitAt, hk]
  · have h2 : j - k.val ≠ 0 := by omega
    cases bit <;> simp [bitAt, Nat.ne_of_gt hl, BitVec.getLsbD_one, h2]

/-- ACCEPT's OR: the bit at the place, every other bit as before (40_extractor.md R103). -/
theorem getLsbD_orBit (old : Byte) (k : Fin 8) (bit : Bool) (j : Nat) :
    (orBit old k bit).getLsbD j = if j = k.val then (old.getLsbD j || bit) else old.getLsbD j := by
  simp only [orBit, BitVec.getLsbD_or, getLsbD_bitAt]
  by_cases hj : j = k.val <;> simp only [hj, decide_true, decide_false, Bool.true_and, Bool.false_and, Bool.or_false,
    if_true, if_false]

theorem getLsbD_oneAt (k : Fin 8) (j : Nat) : ((0x01#8) <<< k.val).getLsbD j = decide (j = k.val) := by
  simpa [bitAt] using getLsbD_bitAt true k j

/-- DISCARD's replacement: the bit at the place, every other bit as before (R104). -/
theorem getLsbD_replaceBit (old : Byte) (k : Fin 8) (bit : Bool) (j : Nat) (hj : j < 8) :
    (replaceBit old k bit).getLsbD j = if j = k.val then bit else old.getLsbD j := by
  simp only [replaceBit, BitVec.getLsbD_or, BitVec.getLsbD_and, BitVec.getLsbD_not, getLsbD_bitAt, getLsbD_oneAt, hj,
    decide_true, Bool.true_and]
  by_cases he : j = k.val <;> simp only [he, decide_true, decide_false, Bool.not_true, Bool.not_false, Bool.and_false,
    Bool.and_true, Bool.true_and, Bool.false_and, Bool.or_false, Bool.false_or, if_true, if_false]

end Sys2Proof.Machine
end

