-- ==== Sys2Proof/Laws/State.lean ====
section
/-! SUPPORT. One lemma for each field of State under each named update, all by rfl, and the outputs of a step as updates of
the trace, so that no later proof unfolds a record update. -/

namespace Sys2Proof.Machine

/-! ### Outputs are updates of the trace -/

@[simp] theorem emit_eq (bs : Block) (s : State) : emit bs s = s.withTrace { s.trace with out := s.trace.out ++ bs } := rfl
@[simp] theorem respond_eq (data : Word) (err : Bool) (s : State) :
    respond data err s = s.withTrace { s.trace with rsps := s.trace.rsps ++ [⟨data, err⟩] } := rfl
@[simp] theorem logEvent_eq (e : Event) (s : State) :
    logEvent e s = s.withTrace { s.trace with events := s.trace.events ++ [e] } := rfl
@[simp] theorem presentToHash_eq (bs : Block) (s : State) :
    presentToHash bs s = s.withTrace { s.trace with hashCalls := s.trace.hashCalls ++ [bs] } := rfl
@[simp] theorem presentToCipher_eq (key pt : Block) (s : State) :
    presentToCipher key pt s = s.withTrace { s.trace with cipherCalls := s.trace.cipherCalls ++ [⟨key, pt⟩] } := rfl
@[simp] theorem raise_fipsFail_eq (mask : Mask) (s : State) :
    raise (.fipsFail mask) s
      = logEvent (.fipsFail mask) { s with lastMask := mask, accMask := s.accMask ||| mask, cntFail := satInc s.cntFail } := rfl
@[simp] theorem raise_keyNotReady_eq (s : State) :
    raise .keyNotReady s = logEvent .keyNotReady { s with cntUnprimed := satInc s.cntUnprimed } := rfl
@[simp] theorem raise_badCommand_eq (s : State) :
    raise .badCommand s = logEvent .badCommand { s with errCmd := true } := rfl

/-! ### Fields under updates -/

@[simp] theorem withTrace_par (s : State) (t : Trace) : (s.withTrace t).par = s.par := rfl
@[simp] theorem withTrace_ebuf (s : State) (t : Trace) : (s.withTrace t).ebuf = s.ebuf := rfl
@[simp] theorem withTrace_eByte (s : State) (t : Trace) : (s.withTrace t).eByte = s.eByte := rfl
@[simp] theorem withTrace_eBit (s : State) (t : Trace) : (s.withTrace t).eBit = s.eBit := rfl
@[simp] theorem withTrace_pool (s : State) (t : Trace) : (s.withTrace t).pool = s.pool := rfl
@[simp] theorem withTrace_pByte (s : State) (t : Trace) : (s.withTrace t).pByte = s.pByte := rfl
@[simp] theorem withTrace_pBit (s : State) (t : Trace) : (s.withTrace t).pBit = s.pBit := rfl
@[simp] theorem withTrace_primed (s : State) (t : Trace) : (s.withTrace t).primed = s.primed := rfl
@[simp] theorem withTrace_prev (s : State) (t : Trace) : (s.withTrace t).prev = s.prev := rfl
@[simp] theorem withTrace_prevValid (s : State) (t : Trace) : (s.withTrace t).prevValid = s.prevValid := rfl
@[simp] theorem withTrace_fcValid (s : State) (t : Trace) : (s.withTrace t).fcValid = s.fcValid := rfl
@[simp] theorem withTrace_fcLen (s : State) (t : Trace) : (s.withTrace t).fcLen = s.fcLen := rfl
@[simp] theorem withTrace_fcPos (s : State) (t : Trace) : (s.withTrace t).fcPos = s.fcPos := rfl
@[simp] theorem withTrace_cfgEncrypt (s : State) (t : Trace) : (s.withTrace t).cfgEncrypt = s.cfgEncrypt := rfl
@[simp] theorem withTrace_cfgPolicy (s : State) (t : Trace) : (s.withTrace t).cfgPolicy = s.cfgPolicy := rfl
@[simp] theorem withTrace_lastValid (s : State) (t : Trace) : (s.withTrace t).lastValid = s.lastValid := rfl
@[simp] theorem withTrace_lastMask (s : State) (t : Trace) : (s.withTrace t).lastMask = s.lastMask := rfl
@[simp] theorem withTrace_accMask (s : State) (t : Trace) : (s.withTrace t).accMask = s.accMask := rfl
@[simp] theorem withTrace_errCmd (s : State) (t : Trace) : (s.withTrace t).errCmd = s.errCmd := rfl
@[simp] theorem withTrace_cntBlocks (s : State) (t : Trace) : (s.withTrace t).cntBlocks = s.cntBlocks := rfl
@[simp] theorem withTrace_cntFail (s : State) (t : Trace) : (s.withTrace t).cntFail = s.cntFail := rfl
@[simp] theorem withTrace_cntEmit (s : State) (t : Trace) : (s.withTrace t).cntEmit = s.cntEmit := rfl
@[simp] theorem withTrace_cntUnprimed (s : State) (t : Trace) : (s.withTrace t).cntUnprimed = s.cntUnprimed := rfl
@[simp] theorem withTrace_trace (s : State) (t : Trace) : (s.withTrace t).trace = t := rfl
@[simp] theorem withTrace_past (s : State) (t : Trace) : (s.withTrace t).past = s.past := rfl
@[simp] theorem withTrace_pending (s : State) (t : Trace) : (s.withTrace t).pending = s.pending := rfl
@[simp] theorem withTrace_resetDone (s : State) (t : Trace) : (s.withTrace t).resetDone = s.resetDone := rfl
@[simp] theorem withTrace_draws (s : State) (t : Trace) : (s.withTrace t).draws = s.draws := rfl
@[simp] theorem withTrace_ret (s : State) (t : Trace) : (s.withTrace t).ret = s.ret := rfl

@[simp] theorem countEmit_par (s : State) : (countEmit s).par = s.par := rfl
@[simp] theorem countEmit_ebuf (s : State) : (countEmit s).ebuf = s.ebuf := rfl
@[simp] theorem countEmit_eByte (s : State) : (countEmit s).eByte = s.eByte := rfl
@[simp] theorem countEmit_eBit (s : State) : (countEmit s).eBit = s.eBit := rfl
@[simp] theorem countEmit_pool (s : State) : (countEmit s).pool = s.pool := rfl
@[simp] theorem countEmit_pByte (s : State) : (countEmit s).pByte = s.pByte := rfl
@[simp] theorem countEmit_pBit (s : State) : (countEmit s).pBit = s.pBit := rfl
@[simp] theorem countEmit_primed (s : State) : (countEmit s).primed = s.primed := rfl
@[simp] theorem countEmit_prev (s : State) : (countEmit s).prev = s.prev := rfl
@[simp] theorem countEmit_prevValid (s : State) : (countEmit s).prevValid = s.prevValid := rfl
@[simp] theorem countEmit_fcValid (s : State) : (countEmit s).fcValid = s.fcValid := rfl
@[simp] theorem countEmit_fcLen (s : State) : (countEmit s).fcLen = s.fcLen := rfl
@[simp] theorem countEmit_fcPos (s : State) : (countEmit s).fcPos = s.fcPos := rfl
@[simp] theorem countEmit_cfgEncrypt (s : State) : (countEmit s).cfgEncrypt = s.cfgEncrypt := rfl
@[simp] theorem countEmit_cfgPolicy (s : State) : (countEmit s).cfgPolicy = s.cfgPolicy := rfl
@[simp] theorem countEmit_lastValid (s : State) : (countEmit s).lastValid = s.lastValid := rfl
@[simp] theorem countEmit_lastMask (s : State) : (countEmit s).lastMask = s.lastMask := rfl
@[simp] theorem countEmit_accMask (s : State) : (countEmit s).accMask = s.accMask := rfl
@[simp] theorem countEmit_errCmd (s : State) : (countEmit s).errCmd = s.errCmd := rfl
@[simp] theorem countEmit_cntBlocks (s : State) : (countEmit s).cntBlocks = s.cntBlocks := rfl
@[simp] theorem countEmit_cntFail (s : State) : (countEmit s).cntFail = s.cntFail := rfl
@[simp] theorem countEmit_cntEmit (s : State) : (countEmit s).cntEmit = satInc s.cntEmit := rfl
@[simp] theorem countEmit_cntUnprimed (s : State) : (countEmit s).cntUnprimed = s.cntUnprimed := rfl
@[simp] theorem countEmit_trace (s : State) : (countEmit s).trace = s.trace := rfl
@[simp] theorem countEmit_past (s : State) : (countEmit s).past = s.past := rfl
@[simp] theorem countEmit_pending (s : State) : (countEmit s).pending = s.pending := rfl
@[simp] theorem countEmit_resetDone (s : State) : (countEmit s).resetDone = s.resetDone := rfl
@[simp] theorem countEmit_draws (s : State) : (countEmit s).draws = s.draws := rfl
@[simp] theorem countEmit_ret (s : State) : (countEmit s).ret = s.ret := rfl

@[simp] theorem returnValue_par (r : Ret) (s : State) : (returnValue r s).par = s.par := rfl
@[simp] theorem returnValue_ebuf (r : Ret) (s : State) : (returnValue r s).ebuf = s.ebuf := rfl
@[simp] theorem returnValue_eByte (r : Ret) (s : State) : (returnValue r s).eByte = s.eByte := rfl
@[simp] theorem returnValue_eBit (r : Ret) (s : State) : (returnValue r s).eBit = s.eBit := rfl
@[simp] theorem returnValue_pool (r : Ret) (s : State) : (returnValue r s).pool = s.pool := rfl
@[simp] theorem returnValue_pByte (r : Ret) (s : State) : (returnValue r s).pByte = s.pByte := rfl
@[simp] theorem returnValue_pBit (r : Ret) (s : State) : (returnValue r s).pBit = s.pBit := rfl
@[simp] theorem returnValue_primed (r : Ret) (s : State) : (returnValue r s).primed = s.primed := rfl
@[simp] theorem returnValue_prev (r : Ret) (s : State) : (returnValue r s).prev = s.prev := rfl
@[simp] theorem returnValue_prevValid (r : Ret) (s : State) : (returnValue r s).prevValid = s.prevValid := rfl
@[simp] theorem returnValue_fcValid (r : Ret) (s : State) : (returnValue r s).fcValid = s.fcValid := rfl
@[simp] theorem returnValue_fcLen (r : Ret) (s : State) : (returnValue r s).fcLen = s.fcLen := rfl
@[simp] theorem returnValue_fcPos (r : Ret) (s : State) : (returnValue r s).fcPos = s.fcPos := rfl
@[simp] theorem returnValue_cfgEncrypt (r : Ret) (s : State) : (returnValue r s).cfgEncrypt = s.cfgEncrypt := rfl
@[simp] theorem returnValue_cfgPolicy (r : Ret) (s : State) : (returnValue r s).cfgPolicy = s.cfgPolicy := rfl
@[simp] theorem returnValue_lastValid (r : Ret) (s : State) : (returnValue r s).lastValid = s.lastValid := rfl
@[simp] theorem returnValue_lastMask (r : Ret) (s : State) : (returnValue r s).lastMask = s.lastMask := rfl
@[simp] theorem returnValue_accMask (r : Ret) (s : State) : (returnValue r s).accMask = s.accMask := rfl
@[simp] theorem returnValue_errCmd (r : Ret) (s : State) : (returnValue r s).errCmd = s.errCmd := rfl
@[simp] theorem returnValue_cntBlocks (r : Ret) (s : State) : (returnValue r s).cntBlocks = s.cntBlocks := rfl
@[simp] theorem returnValue_cntFail (r : Ret) (s : State) : (returnValue r s).cntFail = s.cntFail := rfl
@[simp] theorem returnValue_cntEmit (r : Ret) (s : State) : (returnValue r s).cntEmit = s.cntEmit := rfl
@[simp] theorem returnValue_cntUnprimed (r : Ret) (s : State) : (returnValue r s).cntUnprimed = s.cntUnprimed := rfl
@[simp] theorem returnValue_trace (r : Ret) (s : State) : (returnValue r s).trace = s.trace := rfl
@[simp] theorem returnValue_past (r : Ret) (s : State) : (returnValue r s).past = s.past := rfl
@[simp] theorem returnValue_pending (r : Ret) (s : State) : (returnValue r s).pending = s.pending := rfl
@[simp] theorem returnValue_resetDone (r : Ret) (s : State) : (returnValue r s).resetDone = s.resetDone := rfl
@[simp] theorem returnValue_draws (r : Ret) (s : State) : (returnValue r s).draws = s.draws := rfl
@[simp] theorem returnValue_ret (r : Ret) (s : State) : (returnValue r s).ret = r := rfl

@[simp] theorem clearBlock_par (s : State) : (clearBlock s).par = s.par := rfl
@[simp] theorem clearBlock_ebuf (s : State) : (clearBlock s).ebuf = s.ebuf.writeBlock (List.replicate s.par.B 0x00#8) := rfl
@[simp] theorem clearBlock_eByte (s : State) : (clearBlock s).eByte = 0 := rfl
@[simp] theorem clearBlock_eBit (s : State) : (clearBlock s).eBit = 0 := rfl
@[simp] theorem clearBlock_pool (s : State) : (clearBlock s).pool = s.pool := rfl
@[simp] theorem clearBlock_pByte (s : State) : (clearBlock s).pByte = s.pByte := rfl
@[simp] theorem clearBlock_pBit (s : State) : (clearBlock s).pBit = s.pBit := rfl
@[simp] theorem clearBlock_primed (s : State) : (clearBlock s).primed = s.primed := rfl
@[simp] theorem clearBlock_prev (s : State) : (clearBlock s).prev = s.prev := rfl
@[simp] theorem clearBlock_prevValid (s : State) : (clearBlock s).prevValid = s.prevValid := rfl
@[simp] theorem clearBlock_fcValid (s : State) : (clearBlock s).fcValid = s.fcValid := rfl
@[simp] theorem clearBlock_fcLen (s : State) : (clearBlock s).fcLen = s.fcLen := rfl
@[simp] theorem clearBlock_fcPos (s : State) : (clearBlock s).fcPos = s.fcPos := rfl
@[simp] theorem clearBlock_cfgEncrypt (s : State) : (clearBlock s).cfgEncrypt = s.cfgEncrypt := rfl
@[simp] theorem clearBlock_cfgPolicy (s : State) : (clearBlock s).cfgPolicy = s.cfgPolicy := rfl
@[simp] theorem clearBlock_lastValid (s : State) : (clearBlock s).lastValid = s.lastValid := rfl
@[simp] theorem clearBlock_lastMask (s : State) : (clearBlock s).lastMask = s.lastMask := rfl
@[simp] theorem clearBlock_accMask (s : State) : (clearBlock s).accMask = s.accMask := rfl
@[simp] theorem clearBlock_errCmd (s : State) : (clearBlock s).errCmd = s.errCmd := rfl
@[simp] theorem clearBlock_cntBlocks (s : State) : (clearBlock s).cntBlocks = s.cntBlocks := rfl
@[simp] theorem clearBlock_cntFail (s : State) : (clearBlock s).cntFail = s.cntFail := rfl
@[simp] theorem clearBlock_cntEmit (s : State) : (clearBlock s).cntEmit = s.cntEmit := rfl
@[simp] theorem clearBlock_cntUnprimed (s : State) : (clearBlock s).cntUnprimed = s.cntUnprimed := rfl
@[simp] theorem clearBlock_trace (s : State) : (clearBlock s).trace = s.trace := rfl
@[simp] theorem clearBlock_past (s : State) : (clearBlock s).past = s.past := rfl
@[simp] theorem clearBlock_pending (s : State) : (clearBlock s).pending = s.pending := rfl
@[simp] theorem clearBlock_resetDone (s : State) : (clearBlock s).resetDone = s.resetDone := rfl
@[simp] theorem clearBlock_draws (s : State) : (clearBlock s).draws = s.draws := rfl
@[simp] theorem clearBlock_ret (s : State) : (clearBlock s).ret = s.ret := rfl

@[simp] theorem fipsCarry_par (blk : Block) (s : State) : (fipsCarry blk s).par = s.par := rfl
@[simp] theorem fipsCarry_ebuf (blk : Block) (s : State) : (fipsCarry blk s).ebuf = s.ebuf := rfl
@[simp] theorem fipsCarry_eByte (blk : Block) (s : State) : (fipsCarry blk s).eByte = s.eByte := rfl
@[simp] theorem fipsCarry_eBit (blk : Block) (s : State) : (fipsCarry blk s).eBit = s.eBit := rfl
@[simp] theorem fipsCarry_pool (blk : Block) (s : State) : (fipsCarry blk s).pool = s.pool := rfl
@[simp] theorem fipsCarry_pByte (blk : Block) (s : State) : (fipsCarry blk s).pByte = s.pByte := rfl
@[simp] theorem fipsCarry_pBit (blk : Block) (s : State) : (fipsCarry blk s).pBit = s.pBit := rfl
@[simp] theorem fipsCarry_primed (blk : Block) (s : State) : (fipsCarry blk s).primed = s.primed := rfl
@[simp] theorem fipsCarry_prev (blk : Block) (s : State) : (fipsCarry blk s).prev = s.prev := rfl
@[simp] theorem fipsCarry_prevValid (blk : Block) (s : State) : (fipsCarry blk s).prevValid = s.prevValid := rfl
@[simp] theorem fipsCarry_fcValid (blk : Block) (s : State) : (fipsCarry blk s).fcValid = true := rfl
@[simp] theorem fipsCarry_fcLen (blk : Block) (s : State) : (fipsCarry blk s).fcLen = (blockExtremes blk).len := rfl
@[simp] theorem fipsCarry_fcPos (blk : Block) (s : State) : (fipsCarry blk s).fcPos = (blockExtremes blk).pos := rfl
@[simp] theorem fipsCarry_cfgEncrypt (blk : Block) (s : State) : (fipsCarry blk s).cfgEncrypt = s.cfgEncrypt := rfl
@[simp] theorem fipsCarry_cfgPolicy (blk : Block) (s : State) : (fipsCarry blk s).cfgPolicy = s.cfgPolicy := rfl
@[simp] theorem fipsCarry_lastValid (blk : Block) (s : State) : (fipsCarry blk s).lastValid = s.lastValid := rfl
@[simp] theorem fipsCarry_lastMask (blk : Block) (s : State) : (fipsCarry blk s).lastMask = s.lastMask := rfl
@[simp] theorem fipsCarry_accMask (blk : Block) (s : State) : (fipsCarry blk s).accMask = s.accMask := rfl
@[simp] theorem fipsCarry_errCmd (blk : Block) (s : State) : (fipsCarry blk s).errCmd = s.errCmd := rfl
@[simp] theorem fipsCarry_cntBlocks (blk : Block) (s : State) : (fipsCarry blk s).cntBlocks = s.cntBlocks := rfl
@[simp] theorem fipsCarry_cntFail (blk : Block) (s : State) : (fipsCarry blk s).cntFail = s.cntFail := rfl
@[simp] theorem fipsCarry_cntEmit (blk : Block) (s : State) : (fipsCarry blk s).cntEmit = s.cntEmit := rfl
@[simp] theorem fipsCarry_cntUnprimed (blk : Block) (s : State) : (fipsCarry blk s).cntUnprimed = s.cntUnprimed := rfl
@[simp] theorem fipsCarry_trace (blk : Block) (s : State) : (fipsCarry blk s).trace = s.trace := rfl
@[simp] theorem fipsCarry_past (blk : Block) (s : State) : (fipsCarry blk s).past = s.past := rfl
@[simp] theorem fipsCarry_pending (blk : Block) (s : State) : (fipsCarry blk s).pending = s.pending := rfl
@[simp] theorem fipsCarry_resetDone (blk : Block) (s : State) : (fipsCarry blk s).resetDone = s.resetDone := rfl
@[simp] theorem fipsCarry_draws (blk : Block) (s : State) : (fipsCarry blk s).draws = s.draws := rfl
@[simp] theorem fipsCarry_ret (blk : Block) (s : State) : (fipsCarry blk s).ret = s.ret := rfl

@[simp] theorem remember_par (blk : Block) (s : State) : (remember blk s).par = s.par := rfl
@[simp] theorem remember_ebuf (blk : Block) (s : State) : (remember blk s).ebuf = s.ebuf := rfl
@[simp] theorem remember_eByte (blk : Block) (s : State) : (remember blk s).eByte = s.eByte := rfl
@[simp] theorem remember_eBit (blk : Block) (s : State) : (remember blk s).eBit = s.eBit := rfl
@[simp] theorem remember_pool (blk : Block) (s : State) : (remember blk s).pool = s.pool := rfl
@[simp] theorem remember_pByte (blk : Block) (s : State) : (remember blk s).pByte = s.pByte := rfl
@[simp] theorem remember_pBit (blk : Block) (s : State) : (remember blk s).pBit = s.pBit := rfl
@[simp] theorem remember_primed (blk : Block) (s : State) : (remember blk s).primed = s.primed := rfl
@[simp] theorem remember_prev (blk : Block) (s : State) : (remember blk s).prev = s.prev.writeBlock blk := rfl
@[simp] theorem remember_prevValid (blk : Block) (s : State) : (remember blk s).prevValid = s.prevValid := rfl
@[simp] theorem remember_fcValid (blk : Block) (s : State) : (remember blk s).fcValid = s.fcValid := rfl
@[simp] theorem remember_fcLen (blk : Block) (s : State) : (remember blk s).fcLen = s.fcLen := rfl
@[simp] theorem remember_fcPos (blk : Block) (s : State) : (remember blk s).fcPos = s.fcPos := rfl
@[simp] theorem remember_cfgEncrypt (blk : Block) (s : State) : (remember blk s).cfgEncrypt = s.cfgEncrypt := rfl
@[simp] theorem remember_cfgPolicy (blk : Block) (s : State) : (remember blk s).cfgPolicy = s.cfgPolicy := rfl
@[simp] theorem remember_lastValid (blk : Block) (s : State) : (remember blk s).lastValid = s.lastValid := rfl
@[simp] theorem remember_lastMask (blk : Block) (s : State) : (remember blk s).lastMask = s.lastMask := rfl
@[simp] theorem remember_accMask (blk : Block) (s : State) : (remember blk s).accMask = s.accMask := rfl
@[simp] theorem remember_errCmd (blk : Block) (s : State) : (remember blk s).errCmd = s.errCmd := rfl
@[simp] theorem remember_cntBlocks (blk : Block) (s : State) : (remember blk s).cntBlocks = s.cntBlocks := rfl
@[simp] theorem remember_cntFail (blk : Block) (s : State) : (remember blk s).cntFail = s.cntFail := rfl
@[simp] theorem remember_cntEmit (blk : Block) (s : State) : (remember blk s).cntEmit = s.cntEmit := rfl
@[simp] theorem remember_cntUnprimed (blk : Block) (s : State) : (remember blk s).cntUnprimed = s.cntUnprimed := rfl
@[simp] theorem remember_trace (blk : Block) (s : State) : (remember blk s).trace = s.trace := rfl
@[simp] theorem remember_past (blk : Block) (s : State) : (remember blk s).past = s.past := rfl
@[simp] theorem remember_pending (blk : Block) (s : State) : (remember blk s).pending = s.pending := rfl
@[simp] theorem remember_resetDone (blk : Block) (s : State) : (remember blk s).resetDone = s.resetDone := rfl
@[simp] theorem remember_draws (blk : Block) (s : State) : (remember blk s).draws = s.draws := rfl
@[simp] theorem remember_ret (blk : Block) (s : State) : (remember blk s).ret = s.ret := rfl

@[simp] theorem recordVerdict_par (mask : Mask) (s : State) : (recordVerdict mask s).par = s.par := rfl
@[simp] theorem recordVerdict_ebuf (mask : Mask) (s : State) : (recordVerdict mask s).ebuf = s.ebuf := rfl
@[simp] theorem recordVerdict_eByte (mask : Mask) (s : State) : (recordVerdict mask s).eByte = s.eByte := rfl
@[simp] theorem recordVerdict_eBit (mask : Mask) (s : State) : (recordVerdict mask s).eBit = s.eBit := rfl
@[simp] theorem recordVerdict_pool (mask : Mask) (s : State) : (recordVerdict mask s).pool = s.pool := rfl
@[simp] theorem recordVerdict_pByte (mask : Mask) (s : State) : (recordVerdict mask s).pByte = s.pByte := rfl
@[simp] theorem recordVerdict_pBit (mask : Mask) (s : State) : (recordVerdict mask s).pBit = s.pBit := rfl
@[simp] theorem recordVerdict_primed (mask : Mask) (s : State) : (recordVerdict mask s).primed = s.primed := rfl
@[simp] theorem recordVerdict_prev (mask : Mask) (s : State) : (recordVerdict mask s).prev = s.prev := rfl
@[simp] theorem recordVerdict_prevValid (mask : Mask) (s : State) : (recordVerdict mask s).prevValid = s.prevValid := rfl
@[simp] theorem recordVerdict_fcValid (mask : Mask) (s : State) : (recordVerdict mask s).fcValid = s.fcValid := rfl
@[simp] theorem recordVerdict_fcLen (mask : Mask) (s : State) : (recordVerdict mask s).fcLen = s.fcLen := rfl
@[simp] theorem recordVerdict_fcPos (mask : Mask) (s : State) : (recordVerdict mask s).fcPos = s.fcPos := rfl
@[simp] theorem recordVerdict_cfgEncrypt (mask : Mask) (s : State) : (recordVerdict mask s).cfgEncrypt = s.cfgEncrypt := rfl
@[simp] theorem recordVerdict_cfgPolicy (mask : Mask) (s : State) : (recordVerdict mask s).cfgPolicy = s.cfgPolicy := rfl
@[simp] theorem recordVerdict_lastValid (mask : Mask) (s : State) : (recordVerdict mask s).lastValid = true := rfl
@[simp] theorem recordVerdict_lastMask (mask : Mask) (s : State) : (recordVerdict mask s).lastMask = mask := rfl
@[simp] theorem recordVerdict_accMask (mask : Mask) (s : State) : (recordVerdict mask s).accMask = s.accMask ||| mask := rfl
@[simp] theorem recordVerdict_errCmd (mask : Mask) (s : State) : (recordVerdict mask s).errCmd = s.errCmd := rfl
@[simp] theorem recordVerdict_cntBlocks (mask : Mask) (s : State) : (recordVerdict mask s).cntBlocks = satInc s.cntBlocks := rfl
@[simp] theorem recordVerdict_cntFail (mask : Mask) (s : State) : (recordVerdict mask s).cntFail = s.cntFail := rfl
@[simp] theorem recordVerdict_cntEmit (mask : Mask) (s : State) : (recordVerdict mask s).cntEmit = s.cntEmit := rfl
@[simp] theorem recordVerdict_cntUnprimed (mask : Mask) (s : State) : (recordVerdict mask s).cntUnprimed = s.cntUnprimed := rfl
@[simp] theorem recordVerdict_trace (mask : Mask) (s : State) : (recordVerdict mask s).trace = s.trace := rfl
@[simp] theorem recordVerdict_past (mask : Mask) (s : State) : (recordVerdict mask s).past = s.past := rfl
@[simp] theorem recordVerdict_pending (mask : Mask) (s : State) : (recordVerdict mask s).pending = s.pending := rfl
@[simp] theorem recordVerdict_resetDone (mask : Mask) (s : State) : (recordVerdict mask s).resetDone = s.resetDone := rfl
@[simp] theorem recordVerdict_draws (mask : Mask) (s : State) : (recordVerdict mask s).draws = s.draws := rfl
@[simp] theorem recordVerdict_ret (mask : Mask) (s : State) : (recordVerdict mask s).ret = s.ret := rfl

end Sys2Proof.Machine
end

