-- ==== Sys2Proof/Laws/Encoder.lean ====
section
/-! SUPPORT. What the block cycle and the encoder can do, said once: the five ways a passing block is encoded, the block cycle
as one update, and the fields it never touches. -/

namespace Sys2Proof.Machine

@[simp] theorem cipherOf_length (p : Params) (key blk : Block) : (cipherOf p key blk).length = p.CLEN := by simp [cipherOf]

@[simp] theorem hashOf_length (p : Params) (pool : Block) : (hashOf p pool).length = p.DLEN := by simp [hashOf]

@[simp] theorem poolKey_length (s : State) : (poolKey s).length = s.par.DLEN := by simp [poolKey]

@[simp] theorem xorBlock_length (a b : Block) : (xorBlock a b).length = min a.length b.length := by simp [xorBlock]

theorem satInc_toNat (c : Word) : (satInc c).toNat = if c.toNat = 2 ^ 32 - 1 then c.toNat else c.toNat + 1 := by
  have hc := c.isLt
  by_cases h : c = BitVec.allOnes 32
  · subst h; simp [satInc]
  · have h' : c.toNat ≠ 2 ^ 32 - 1 := fun h' => h (BitVec.eq_of_toNat_eq (by simpa using h'))
    simp only [satInc, if_neg h, if_neg h', BitVec.toNat_add, BitVec.toNat_ofNat]
    omega

/-- The ways a passing block is encoded (42_output_encoder.md R162 to R167). -/
theorem encodeBlock_cases (blk : Block) (s : State) :
    (s.cfgEncrypt = false ∧ s.prevValid = false ∧
      encodeBlock blk s = { s with prev := s.prev.writeBlock blk, prevValid := true }) ∨
    (s.cfgEncrypt = false ∧ s.prevValid = true ∧
      encodeBlock blk s = { s with
        prev := s.prev.writeBlock blk, cntEmit := satInc s.cntEmit,
        trace := { s.trace with out := s.trace.out ++ xorBlock blk (s.prev.block s.par.B) } }) ∨
    (s.cfgEncrypt = true ∧ s.primed = true ∧
      encodeBlock blk s = { s with
        cntEmit := satInc s.cntEmit,
        trace := { s.trace with
          out := s.trace.out ++ cipherOf s.par (poolKey s) blk,
          hashCalls := s.trace.hashCalls ++ [s.pool.block s.par.L],
          cipherCalls := s.trace.cipherCalls ++ [⟨poolKey s, blk⟩] } }) ∨
    (s.cfgEncrypt = true ∧ s.primed = false ∧ s.cfgPolicy = false ∧
      encodeBlock blk s = { s with
        cntUnprimed := satInc s.cntUnprimed,
        trace := { s.trace with events := s.trace.events ++ [.keyNotReady] } }) ∨
    (s.cfgEncrypt = true ∧ s.primed = false ∧ s.cfgPolicy = true ∧
      encodeBlock blk s = { s with
        cntUnprimed := satInc s.cntUnprimed, cntEmit := satInc s.cntEmit,
        trace := { s.trace with out := s.trace.out ++ blk, events := s.trace.events ++ [.keyNotReady] } }) := by
  cases hm : s.cfgEncrypt
  · cases hv : s.prevValid
    · exact .inl ⟨rfl, rfl, by simp [encodeBlock, whiten, remember, hm, hv]⟩
    · exact .inr (.inl ⟨rfl, rfl, by simp [encodeBlock, whiten, remember, countEmit, State.withTrace, hm, hv]⟩)
  · cases hp : s.primed
    · cases hq : s.cfgPolicy
      · exact .inr (.inr (.inr (.inl ⟨rfl, rfl, rfl, by
          simp [encodeBlock, encrypt, unprimed, State.withTrace, hm, hp, hq]⟩)))
      · exact .inr (.inr (.inr (.inr ⟨rfl, rfl, rfl, by
          simp [encodeBlock, encrypt, unprimed, countEmit, State.withTrace, hm, hp, hq]⟩)))
    · exact .inr (.inr (.inl ⟨rfl, rfl, by
        simp [encodeBlock, encrypt, encryptPrimed, countEmit, State.withTrace, hm, hp]⟩))

/-- The fields that only ENCODE and a failing verdict may write; the block cycle writes nothing else besides the verdict
registers, the carried state, `ebuf` and its cursor (R160, R161). -/
theorem settleBlock_eq (mask : Mask) (blk : Block) (s : State) :
    ∃ prev prevValid cntEmit cntUnprimed cntFail lastMask accMask trace,
      settleBlock mask blk s = { s with
        prev := prev, prevValid := prevValid, cntEmit := cntEmit, cntUnprimed := cntUnprimed, cntFail := cntFail,
        lastMask := lastMask, accMask := accMask, trace := trace } := by
  unfold settleBlock
  split
  · rcases encodeBlock_cases blk s with h | h | h | h | h <;> obtain ⟨-, h⟩ := h <;>
      (try obtain ⟨-, h⟩ := h) <;> (try obtain ⟨-, h⟩ := h) <;> exact ⟨_, _, _, _, _, _, _, _, h⟩
  · exact ⟨_, _, _, _, _, _, _, _, rfl⟩

/-- The state in which ENCODE runs: the verdict is recorded, the carried state updated (R160, R138). -/
def judged (s : State) : State :=
  recordVerdict (fipsMask (s.ebuf.block s.par.B) s) (fipsCarry (s.ebuf.block s.par.B) s)

/-- The block cycle of a block that passes (R160). -/
theorem blockCycle_pass {s : State} (h : fipsMask (s.ebuf.block s.par.B) s = 0#5) :
    blockCycle s = clearBlock (encodeBlock (s.ebuf.block s.par.B) (judged s)) := by
  simp [blockCycle, settleBlock, judged, h]

/-- The block cycle of a block that fails (R160, R161). -/
theorem blockCycle_fail {s : State} (h : fipsMask (s.ebuf.block s.par.B) s ≠ 0#5) :
    blockCycle s = clearBlock (raise (.fipsFail (fipsMask (s.ebuf.block s.par.B) s)) (judged s)) := by
  simp only [blockCycle, settleBlock, judged, if_neg h]

theorem blockCycle_eq (s : State) :
    ∃ prev prevValid cntEmit cntUnprimed cntFail lastMask accMask trace,
      blockCycle s = clearBlock { judged s with
        prev := prev, prevValid := prevValid, cntEmit := cntEmit, cntUnprimed := cntUnprimed, cntFail := cntFail,
        lastMask := lastMask, accMask := accMask, trace := trace } := by
  obtain ⟨a, b, c, d, e, f, g, t, h⟩ := settleBlock_eq (fipsMask (s.ebuf.block s.par.B) s) (s.ebuf.block s.par.B) (judged s)
  exact ⟨a, b, c, d, e, f, g, t, congrArg clearBlock h⟩

@[simp] theorem judged_par (s : State) : (judged s).par = s.par := rfl
@[simp] theorem judged_ebuf (s : State) : (judged s).ebuf = s.ebuf := rfl
@[simp] theorem judged_eByte (s : State) : (judged s).eByte = s.eByte := rfl
@[simp] theorem judged_eBit (s : State) : (judged s).eBit = s.eBit := rfl
@[simp] theorem judged_pool (s : State) : (judged s).pool = s.pool := rfl
@[simp] theorem judged_pByte (s : State) : (judged s).pByte = s.pByte := rfl
@[simp] theorem judged_pBit (s : State) : (judged s).pBit = s.pBit := rfl
@[simp] theorem judged_primed (s : State) : (judged s).primed = s.primed := rfl
@[simp] theorem judged_prev (s : State) : (judged s).prev = s.prev := rfl
@[simp] theorem judged_prevValid (s : State) : (judged s).prevValid = s.prevValid := rfl
@[simp] theorem judged_fcValid (s : State) : (judged s).fcValid = true := rfl
@[simp] theorem judged_fcLen (s : State) : (judged s).fcLen = (blockExtremes (s.ebuf.block s.par.B)).len := rfl
@[simp] theorem judged_fcPos (s : State) : (judged s).fcPos = (blockExtremes (s.ebuf.block s.par.B)).pos := rfl
@[simp] theorem judged_cfgEncrypt (s : State) : (judged s).cfgEncrypt = s.cfgEncrypt := rfl
@[simp] theorem judged_cfgPolicy (s : State) : (judged s).cfgPolicy = s.cfgPolicy := rfl
@[simp] theorem judged_lastValid (s : State) : (judged s).lastValid = true := rfl
@[simp] theorem judged_lastMask (s : State) : (judged s).lastMask = fipsMask (s.ebuf.block s.par.B) s := rfl
@[simp] theorem judged_accMask (s : State) : (judged s).accMask = s.accMask ||| fipsMask (s.ebuf.block s.par.B) s := rfl
@[simp] theorem judged_errCmd (s : State) : (judged s).errCmd = s.errCmd := rfl
@[simp] theorem judged_cntBlocks (s : State) : (judged s).cntBlocks = satInc s.cntBlocks := rfl
@[simp] theorem judged_cntFail (s : State) : (judged s).cntFail = s.cntFail := rfl
@[simp] theorem judged_cntEmit (s : State) : (judged s).cntEmit = s.cntEmit := rfl
@[simp] theorem judged_cntUnprimed (s : State) : (judged s).cntUnprimed = s.cntUnprimed := rfl
@[simp] theorem judged_trace (s : State) : (judged s).trace = s.trace := rfl
@[simp] theorem judged_past (s : State) : (judged s).past = s.past := rfl
@[simp] theorem judged_pending (s : State) : (judged s).pending = s.pending := rfl
@[simp] theorem judged_resetDone (s : State) : (judged s).resetDone = s.resetDone := rfl
@[simp] theorem judged_draws (s : State) : (judged s).draws = s.draws := rfl
@[simp] theorem judged_ret (s : State) : (judged s).ret = s.ret := rfl

/-- The six ways a block cycle ends (R160 to R167): the block fails, seeds `prev`, is whitened, is encrypted, is dropped or is
passed through. Beside these updates it records the verdict (`judged`) and clears `ebuf`. -/
theorem blockCycle_cases (s : State) :
    (fipsMask (s.ebuf.block s.par.B) s ≠ 0#5 ∧
      blockCycle s = { clearBlock (judged s) with
        cntFail := satInc s.cntFail,
        trace := { s.trace with events := s.trace.events ++ [.fipsFail (fipsMask (s.ebuf.block s.par.B) s)] } }) ∨
    (fipsMask (s.ebuf.block s.par.B) s = 0#5 ∧ s.cfgEncrypt = false ∧ s.prevValid = false ∧
      blockCycle s = { clearBlock (judged s) with prev := s.prev.writeBlock (s.ebuf.block s.par.B), prevValid := true }) ∨
    (fipsMask (s.ebuf.block s.par.B) s = 0#5 ∧ s.cfgEncrypt = false ∧ s.prevValid = true ∧
      blockCycle s = { clearBlock (judged s) with
        prev := s.prev.writeBlock (s.ebuf.block s.par.B), cntEmit := satInc s.cntEmit,
        trace := { s.trace with out := s.trace.out ++ xorBlock (s.ebuf.block s.par.B) (s.prev.block s.par.B) } }) ∨
    (fipsMask (s.ebuf.block s.par.B) s = 0#5 ∧ s.cfgEncrypt = true ∧ s.primed = true ∧
      blockCycle s = { clearBlock (judged s) with
        cntEmit := satInc s.cntEmit,
        trace := { s.trace with
          out := s.trace.out ++ cipherOf s.par (poolKey s) (s.ebuf.block s.par.B),
          hashCalls := s.trace.hashCalls ++ [s.pool.block s.par.L],
          cipherCalls := s.trace.cipherCalls ++ [⟨poolKey s, s.ebuf.block s.par.B⟩] } }) ∨
    (fipsMask (s.ebuf.block s.par.B) s = 0#5 ∧ s.cfgEncrypt = true ∧ s.primed = false ∧ s.cfgPolicy = false ∧
      blockCycle s = { clearBlock (judged s) with
        cntUnprimed := satInc s.cntUnprimed,
        trace := { s.trace with events := s.trace.events ++ [.keyNotReady] } }) ∨
    (fipsMask (s.ebuf.block s.par.B) s = 0#5 ∧ s.cfgEncrypt = true ∧ s.primed = false ∧ s.cfgPolicy = true ∧
      blockCycle s = { clearBlock (judged s) with
        cntUnprimed := satInc s.cntUnprimed, cntEmit := satInc s.cntEmit,
        trace := { s.trace with
          out := s.trace.out ++ s.ebuf.block s.par.B, events := s.trace.events ++ [.keyNotReady] } }) := by
  by_cases hm : fipsMask (s.ebuf.block s.par.B) s = 0#5
  · rw [blockCycle_pass hm]
    rcases encodeBlock_cases (s.ebuf.block s.par.B) (judged s) with
      ⟨h1, h2, h⟩ | ⟨h1, h2, h⟩ | ⟨h1, h2, h⟩ | ⟨h1, h2, h3, h⟩ | ⟨h1, h2, h3, h⟩
    · exact .inr (.inl ⟨hm, h1, h2, by rw [h]; rfl⟩)
    · exact .inr (.inr (.inl ⟨hm, h1, h2, by rw [h]; rfl⟩))
    · exact .inr (.inr (.inr (.inl ⟨hm, h1, h2, by rw [h]; rfl⟩)))
    · exact .inr (.inr (.inr (.inr (.inl ⟨hm, h1, h2, h3, by rw [h]; rfl⟩))))
    · exact .inr (.inr (.inr (.inr (.inr ⟨hm, h1, h2, h3, by rw [h]; rfl⟩))))
  · exact .inl ⟨hm, by
      rw [blockCycle_fail hm]
      simp [clearBlock, judged, recordVerdict, fipsCarry, State.withTrace, BitVec.or_assoc]⟩

/-! ### What the block cycle leaves and what it always sets -/

@[simp] theorem blockCycle_par (s : State) : (blockCycle s).par = s.par := by
  obtain ⟨_, _, _, _, _, _, _, _, h⟩ := blockCycle_eq s; simp [h, judged]
@[simp] theorem blockCycle_pool (s : State) : (blockCycle s).pool = s.pool := by
  obtain ⟨_, _, _, _, _, _, _, _, h⟩ := blockCycle_eq s; simp [h, judged]
@[simp] theorem blockCycle_pByte (s : State) : (blockCycle s).pByte = s.pByte := by
  obtain ⟨_, _, _, _, _, _, _, _, h⟩ := blockCycle_eq s; simp [h, judged]
@[simp] theorem blockCycle_pBit (s : State) : (blockCycle s).pBit = s.pBit := by
  obtain ⟨_, _, _, _, _, _, _, _, h⟩ := blockCycle_eq s; simp [h, judged]
@[simp] theorem blockCycle_primed (s : State) : (blockCycle s).primed = s.primed := by
  obtain ⟨_, _, _, _, _, _, _, _, h⟩ := blockCycle_eq s; simp [h, judged]
@[simp] theorem blockCycle_cfgEncrypt (s : State) : (blockCycle s).cfgEncrypt = s.cfgEncrypt := by
  obtain ⟨_, _, _, _, _, _, _, _, h⟩ := blockCycle_eq s; simp [h, judged]
@[simp] theorem blockCycle_cfgPolicy (s : State) : (blockCycle s).cfgPolicy = s.cfgPolicy := by
  obtain ⟨_, _, _, _, _, _, _, _, h⟩ := blockCycle_eq s; simp [h, judged]
@[simp] theorem blockCycle_errCmd (s : State) : (blockCycle s).errCmd = s.errCmd := by
  obtain ⟨_, _, _, _, _, _, _, _, h⟩ := blockCycle_eq s; simp [h, judged]
@[simp] theorem blockCycle_past (s : State) : (blockCycle s).past = s.past := by
  obtain ⟨_, _, _, _, _, _, _, _, h⟩ := blockCycle_eq s; simp [h, judged]
@[simp] theorem blockCycle_pending (s : State) : (blockCycle s).pending = s.pending := by
  obtain ⟨_, _, _, _, _, _, _, _, h⟩ := blockCycle_eq s; simp [h, judged]
@[simp] theorem blockCycle_resetDone (s : State) : (blockCycle s).resetDone = s.resetDone := by
  obtain ⟨_, _, _, _, _, _, _, _, h⟩ := blockCycle_eq s; simp [h, judged]
@[simp] theorem blockCycle_draws (s : State) : (blockCycle s).draws = s.draws := by
  obtain ⟨_, _, _, _, _, _, _, _, h⟩ := blockCycle_eq s; simp [h, judged]
@[simp] theorem blockCycle_ret (s : State) : (blockCycle s).ret = s.ret := by
  obtain ⟨_, _, _, _, _, _, _, _, h⟩ := blockCycle_eq s; simp [h, judged]
@[simp] theorem blockCycle_eByte (s : State) : (blockCycle s).eByte = 0 := by
  obtain ⟨_, _, _, _, _, _, _, _, h⟩ := blockCycle_eq s; simp [h, judged]
@[simp] theorem blockCycle_eBit (s : State) : (blockCycle s).eBit = 0 := by
  obtain ⟨_, _, _, _, _, _, _, _, h⟩ := blockCycle_eq s; simp [h, judged]
@[simp] theorem blockCycle_ebuf (s : State) : (blockCycle s).ebuf = s.ebuf.writeBlock (List.replicate s.par.B 0x00#8) := by
  obtain ⟨_, _, _, _, _, _, _, _, h⟩ := blockCycle_eq s; simp [h, judged]
@[simp] theorem blockCycle_fcValid (s : State) : (blockCycle s).fcValid = true := by
  obtain ⟨_, _, _, _, _, _, _, _, h⟩ := blockCycle_eq s; simp [h, judged]
@[simp] theorem blockCycle_lastValid (s : State) : (blockCycle s).lastValid = true := by
  obtain ⟨_, _, _, _, _, _, _, _, h⟩ := blockCycle_eq s; simp [h, judged]
@[simp] theorem blockCycle_cntBlocks (s : State) : (blockCycle s).cntBlocks = satInc s.cntBlocks := by
  obtain ⟨_, _, _, _, _, _, _, _, h⟩ := blockCycle_eq s; simp [h, judged]
@[simp] theorem blockCycle_fcLen (s : State) : (blockCycle s).fcLen = (blockExtremes (s.ebuf.block s.par.B)).len := by
  obtain ⟨_, _, _, _, _, _, _, _, h⟩ := blockCycle_eq s; simp [h, judged]
@[simp] theorem blockCycle_fcPos (s : State) : (blockCycle s).fcPos = (blockExtremes (s.ebuf.block s.par.B)).pos := by
  obtain ⟨_, _, _, _, _, _, _, _, h⟩ := blockCycle_eq s; simp [h, judged]

end Sys2Proof.Machine
end

