-- ==== Sys2Proof/Laws/Extractor.lean ====
section
/-! SUPPORT. What ACCEPT, DISCARD, PAIR and PUSH can do, said once: one inversion lemma for each, the cursor arithmetic, the bits
written, and the packaging of a PUSH as its pairs. -/

namespace Sys2Proof.Machine

/-! ### Outcomes -/

@[simp] theorem andThen_next (s : State) (f : State → Result) : andThen (.next s) f = f s := rfl
@[simp] theorem andThen_fault (r : Fault) (f : State → Result) : andThen (.fault r) f = .fault r := rfl
@[simp] theorem andThen_refused (r : Refusal) (f : State → Result) : andThen (.refused r) f = .refused r := rfl

theorem andThen_eq_next {o : Result} {f : State → Result} {t : State} :
    andThen o f = .next t ↔ ∃ s, o = .next s ∧ f s = .next t := by
  cases o <;> simp

/-! ### The cursors -/

/-- Advancing a cursor by one bit (40_extractor.md R103, R104). -/
theorem cursorBits_advance (byte : Nat) (bit : Fin 8) :
    (if bit = 7 then cursorBits (byte + 1) 0 else cursorBits byte (bit + 1)) = cursorBits byte bit + 1 := by
  have h := bit.isLt
  split
  · next h7 => subst h7; simp [cursorBits]; omega
  · next h7 =>
    have : bit.val ≠ 7 := fun h' => h7 (Fin.ext h')
    simp only [cursorBits, Fin.val_add]
    change 8 * byte + (bit.val + 1) % 8 = _
    omega

theorem cursorBits_div (byte : Nat) (bit : Fin 8) : cursorBits byte bit / 8 = byte := by
  have := bit.isLt; simp only [cursorBits]; omega

theorem cursorBits_mod (byte : Nat) (bit : Fin 8) : cursorBits byte bit % 8 = bit.val := by
  have := bit.isLt; simp only [cursorBits]; omega

theorem cursorBits_lt_iff (byte : Nat) (bit : Fin 8) (n : Nat) : cursorBits byte bit < 8 * n ↔ byte < n := by
  have := bit.isLt; simp only [cursorBits]; omega

theorem cursorBits_eq_iff (byte : Nat) (bit : Fin 8) (n : Nat) : n = cursorBits byte bit ↔ n / 8 = byte ∧ n % 8 = bit.val := by
  have := bit.isLt; simp only [cursorBits]; omega

/-- A bit of a memory after one byte write. -/
theorem Memory.bitPos_write {m : Memory} (i : Nat) (v : Byte) (n : Nat) (h : Memory.wf m = true) :
    (m.write i v).bitPos n = if n / 8 = i then v.getLsbD (n % 8) else m.bitPos n := by
  simp only [Memory.bitPos, Memory.bit, Memory.read_write i v _ h]
  split <;> rfl

/-! ### ACCEPT -/

/-- The write of ACCEPT as one update (R103). -/
theorem writeAccepted_eq (bit : Bool) (s : State) :
    writeAccepted bit s = { s with
      ebuf := s.ebuf.write s.eByte (orBit (s.ebuf.read s.eByte) s.eBit bit)
      eByte := if s.eBit = 7 then s.eByte + 1 else s.eByte
      eBit := if s.eBit = 7 then 0 else s.eBit + 1 } := by
  unfold writeAccepted; split <;> rfl

theorem writeAccepted_ecur (bit : Bool) (s : State) : (writeAccepted bit s).ecur = s.ecur + 1 := by
  rw [State.ecur, State.ecur, ← cursorBits_advance, writeAccepted_eq]
  split <;> rfl

/-- The OR at the cursor, every other bit as before (R103). -/
theorem writeAccepted_bitPos (bit : Bool) (s : State) (n : Nat) (h : s.ebuf.wf = true) :
    (writeAccepted bit s).ebuf.bitPos n = if n = s.ecur then (s.ebuf.bitPos n || bit) else s.ebuf.bitPos n := by
  simp only [writeAccepted_eq, Memory.bitPos_write _ _ _ h, State.ecur, cursorBits_eq_iff, getLsbD_orBit]
  simp only [Memory.bitPos, Memory.bit]
  by_cases h1 : n / 8 = s.eByte <;> by_cases h2 : n % 8 = s.eBit.val <;> simp [h1, h2]

/-- What ACCEPT does when it answers a next state (R103, R106). -/
theorem accept_cases {bit : Bool} {s t : State} (h : accept bit s = .next t) :
    s.eByte < s.par.B ∧
      ((s.ecur + 1 < 8 * s.par.B ∧ t = writeAccepted bit s) ∨
        (s.ecur + 1 = 8 * s.par.B ∧ t = blockCycle (writeAccepted bit s))) := by
  unfold accept at h
  split at h
  · next hB =>
    refine ⟨hB, ?_⟩
    have hcur := writeAccepted_ecur bit s
    have hlt := (cursorBits_lt_iff s.eByte s.eBit s.par.B).2 hB
    have hpar : (writeAccepted bit s).par = s.par := by rw [writeAccepted_eq]
    have hle := cursorBits_lt_iff (writeAccepted bit s).eByte (writeAccepted bit s).eBit s.par.B
    simp only [State.ecur] at hcur ⊢
    unfold checkFull at h
    rw [hpar] at h
    split at h
    · next hf =>
      refine .inr ⟨?_, by simpa using h.symm⟩
      have : ¬ cursorBits (writeAccepted bit s).eByte (writeAccepted bit s).eBit < 8 * s.par.B := fun h' => by
        have := hle.1 h'; omega
      omega
    · next hf =>
      refine .inl ⟨?_, by simpa using h.symm⟩
      have := hle.2 (by omega)
      omega
  · simp at h

/-- ACCEPT answers a next state wherever its precondition holds (R103). -/
theorem accept_next (bit : Bool) {s : State} (h : s.eByte < s.par.B) :
    accept bit s = .next (checkFull (writeAccepted bit s)) := if_pos h

/-! ### DISCARD -/

/-- The write of DISCARD as one update (R104). -/
theorem writeDiscarded_eq (bit : Bool) (s : State) :
    writeDiscarded bit s = { s with
      pool := s.pool.write s.pByte (replaceBit (s.pool.read s.pByte) s.pBit bit)
      pByte := if s.pBit = 7 then (if s.pByte = s.par.L - 1 then 0 else s.pByte + 1) else s.pByte
      pBit := if s.pBit = 7 then 0 else s.pBit + 1
      primed := if s.pBit = 7 ∧ s.pByte = s.par.L - 1 then true else s.primed } := by
  unfold writeDiscarded
  by_cases h1 : s.pBit = 7 <;> by_cases h2 : s.pByte = s.par.L - 1 <;> simp [h1, h2]

/-- The pool cursor goes on modulo the ring (R25, R104). -/
theorem writeDiscarded_pcur (bit : Bool) {s : State} (h : s.pByte < s.par.L) :
    (writeDiscarded bit s).pcur = (s.pcur + 1) % (8 * s.par.L) := by
  have hadv := cursorBits_advance s.pByte s.pBit
  have hlt := (cursorBits_lt_iff s.pByte s.pBit s.par.L).2 h
  have hb := s.pBit.isLt
  simp only [State.pcur, writeDiscarded_eq]
  by_cases h1 : s.pBit = 7
  · simp only [h1, if_true] at hadv ⊢
    by_cases h2 : s.pByte = s.par.L - 1
    · have hfull : cursorBits s.pByte 7 + 1 = 8 * s.par.L := by rw [← hadv]; simp only [cursorBits]; simp; omega
      rw [if_pos h2, hfull, Nat.mod_self]; rfl
    · rw [if_neg h2, hadv, Nat.mod_eq_of_lt]
      rw [← hadv]; simp only [cursorBits]; simp; omega
  · simp only [h1, if_false] at hadv ⊢
    rw [hadv, Nat.mod_eq_of_lt]
    have : s.pBit.val ≠ 7 := fun h' => h1 (Fin.ext h')
    simp only [cursorBits]; omega

/-- `primed` is set by the wrap and never cleared (10_state.md R26). -/
theorem writeDiscarded_primed (bit : Bool) {s : State} (h : s.pByte < s.par.L) :
    (writeDiscarded bit s).primed = (s.primed || decide (s.pcur + 1 = 8 * s.par.L)) := by
  have hb := s.pBit.isLt
  have : (s.pBit = 7 ∧ s.pByte = s.par.L - 1) ↔ s.pcur + 1 = 8 * s.par.L := by
    rw [State.pcur, cursorBits, Fin.ext_iff]
    change (s.pBit.val = 7 ∧ _) ↔ _
    omega
  simp only [writeDiscarded_eq, this]
  by_cases h' : s.pcur + 1 = 8 * s.par.L <;> simp [h']

/-- The replacement at the cursor, every other bit as before (R104). -/
theorem writeDiscarded_bitPos (bit : Bool) (s : State) (n : Nat) (h : s.pool.wf = true) :
    (writeDiscarded bit s).pool.bitPos n = if n = s.pcur then bit else s.pool.bitPos n := by
  simp only [writeDiscarded_eq, Memory.bitPos_write _ _ _ h, State.pcur, cursorBits_eq_iff,
    getLsbD_replaceBit _ _ _ _ (Nat.mod_lt n (by decide : 0 < 8))]
  simp only [Memory.bitPos, Memory.bit]
  by_cases h1 : n / 8 = s.pByte <;> by_cases h2 : n % 8 = s.pBit.val <;> simp [h1, h2]

/-- What DISCARD does when it answers a next state (R104). -/
theorem discard_cases {bit : Bool} {s t : State} (h : discard bit s = .next t) :
    s.pByte < s.par.L ∧ t = writeDiscarded bit s := by
  unfold discard at h
  split at h
  · next hL => exact ⟨hL, by simpa using h.symm⟩
  · simp at h

theorem discard_next (bit : Bool) {s : State} (h : s.pByte < s.par.L) : discard bit s = .next (writeDiscarded bit s) :=
  if_pos h

/-! ### Fields that ACCEPT's and DISCARD's writes leave -/

@[simp] theorem writeAccepted_par (bit : Bool) (s : State) : (writeAccepted bit s).par = s.par := by rw [writeAccepted_eq]
@[simp] theorem writeAccepted_pool (bit : Bool) (s : State) : (writeAccepted bit s).pool = s.pool := by rw [writeAccepted_eq]
@[simp] theorem writeAccepted_pByte (bit : Bool) (s : State) : (writeAccepted bit s).pByte = s.pByte := by rw [writeAccepted_eq]
@[simp] theorem writeAccepted_pBit (bit : Bool) (s : State) : (writeAccepted bit s).pBit = s.pBit := by rw [writeAccepted_eq]
@[simp] theorem writeAccepted_primed (bit : Bool) (s : State) : (writeAccepted bit s).primed = s.primed := by rw [writeAccepted_eq]
@[simp] theorem writeAccepted_prev (bit : Bool) (s : State) : (writeAccepted bit s).prev = s.prev := by rw [writeAccepted_eq]
@[simp] theorem writeAccepted_prevValid (bit : Bool) (s : State) : (writeAccepted bit s).prevValid = s.prevValid := by rw [writeAccepted_eq]
@[simp] theorem writeAccepted_fcValid (bit : Bool) (s : State) : (writeAccepted bit s).fcValid = s.fcValid := by rw [writeAccepted_eq]
@[simp] theorem writeAccepted_fcLen (bit : Bool) (s : State) : (writeAccepted bit s).fcLen = s.fcLen := by rw [writeAccepted_eq]
@[simp] theorem writeAccepted_fcPos (bit : Bool) (s : State) : (writeAccepted bit s).fcPos = s.fcPos := by rw [writeAccepted_eq]
@[simp] theorem writeAccepted_cfgEncrypt (bit : Bool) (s : State) : (writeAccepted bit s).cfgEncrypt = s.cfgEncrypt := by rw [writeAccepted_eq]
@[simp] theorem writeAccepted_cfgPolicy (bit : Bool) (s : State) : (writeAccepted bit s).cfgPolicy = s.cfgPolicy := by rw [writeAccepted_eq]
@[simp] theorem writeAccepted_lastValid (bit : Bool) (s : State) : (writeAccepted bit s).lastValid = s.lastValid := by rw [writeAccepted_eq]
@[simp] theorem writeAccepted_lastMask (bit : Bool) (s : State) : (writeAccepted bit s).lastMask = s.lastMask := by rw [writeAccepted_eq]
@[simp] theorem writeAccepted_accMask (bit : Bool) (s : State) : (writeAccepted bit s).accMask = s.accMask := by rw [writeAccepted_eq]
@[simp] theorem writeAccepted_errCmd (bit : Bool) (s : State) : (writeAccepted bit s).errCmd = s.errCmd := by rw [writeAccepted_eq]
@[simp] theorem writeAccepted_cntBlocks (bit : Bool) (s : State) : (writeAccepted bit s).cntBlocks = s.cntBlocks := by rw [writeAccepted_eq]
@[simp] theorem writeAccepted_cntFail (bit : Bool) (s : State) : (writeAccepted bit s).cntFail = s.cntFail := by rw [writeAccepted_eq]
@[simp] theorem writeAccepted_cntEmit (bit : Bool) (s : State) : (writeAccepted bit s).cntEmit = s.cntEmit := by rw [writeAccepted_eq]
@[simp] theorem writeAccepted_cntUnprimed (bit : Bool) (s : State) : (writeAccepted bit s).cntUnprimed = s.cntUnprimed := by rw [writeAccepted_eq]
@[simp] theorem writeAccepted_trace (bit : Bool) (s : State) : (writeAccepted bit s).trace = s.trace := by rw [writeAccepted_eq]
@[simp] theorem writeAccepted_past (bit : Bool) (s : State) : (writeAccepted bit s).past = s.past := by rw [writeAccepted_eq]
@[simp] theorem writeAccepted_pending (bit : Bool) (s : State) : (writeAccepted bit s).pending = s.pending := by rw [writeAccepted_eq]
@[simp] theorem writeAccepted_resetDone (bit : Bool) (s : State) : (writeAccepted bit s).resetDone = s.resetDone := by rw [writeAccepted_eq]
@[simp] theorem writeAccepted_draws (bit : Bool) (s : State) : (writeAccepted bit s).draws = s.draws := by rw [writeAccepted_eq]
@[simp] theorem writeAccepted_ret (bit : Bool) (s : State) : (writeAccepted bit s).ret = s.ret := by rw [writeAccepted_eq]
@[simp] theorem writeDiscarded_par (bit : Bool) (s : State) : (writeDiscarded bit s).par = s.par := by rw [writeDiscarded_eq]
@[simp] theorem writeDiscarded_ebuf (bit : Bool) (s : State) : (writeDiscarded bit s).ebuf = s.ebuf := by rw [writeDiscarded_eq]
@[simp] theorem writeDiscarded_eByte (bit : Bool) (s : State) : (writeDiscarded bit s).eByte = s.eByte := by rw [writeDiscarded_eq]
@[simp] theorem writeDiscarded_eBit (bit : Bool) (s : State) : (writeDiscarded bit s).eBit = s.eBit := by rw [writeDiscarded_eq]
@[simp] theorem writeDiscarded_prev (bit : Bool) (s : State) : (writeDiscarded bit s).prev = s.prev := by rw [writeDiscarded_eq]
@[simp] theorem writeDiscarded_prevValid (bit : Bool) (s : State) : (writeDiscarded bit s).prevValid = s.prevValid := by rw [writeDiscarded_eq]
@[simp] theorem writeDiscarded_fcValid (bit : Bool) (s : State) : (writeDiscarded bit s).fcValid = s.fcValid := by rw [writeDiscarded_eq]
@[simp] theorem writeDiscarded_fcLen (bit : Bool) (s : State) : (writeDiscarded bit s).fcLen = s.fcLen := by rw [writeDiscarded_eq]
@[simp] theorem writeDiscarded_fcPos (bit : Bool) (s : State) : (writeDiscarded bit s).fcPos = s.fcPos := by rw [writeDiscarded_eq]
@[simp] theorem writeDiscarded_cfgEncrypt (bit : Bool) (s : State) : (writeDiscarded bit s).cfgEncrypt = s.cfgEncrypt := by rw [writeDiscarded_eq]
@[simp] theorem writeDiscarded_cfgPolicy (bit : Bool) (s : State) : (writeDiscarded bit s).cfgPolicy = s.cfgPolicy := by rw [writeDiscarded_eq]
@[simp] theorem writeDiscarded_lastValid (bit : Bool) (s : State) : (writeDiscarded bit s).lastValid = s.lastValid := by rw [writeDiscarded_eq]
@[simp] theorem writeDiscarded_lastMask (bit : Bool) (s : State) : (writeDiscarded bit s).lastMask = s.lastMask := by rw [writeDiscarded_eq]
@[simp] theorem writeDiscarded_accMask (bit : Bool) (s : State) : (writeDiscarded bit s).accMask = s.accMask := by rw [writeDiscarded_eq]
@[simp] theorem writeDiscarded_errCmd (bit : Bool) (s : State) : (writeDiscarded bit s).errCmd = s.errCmd := by rw [writeDiscarded_eq]
@[simp] theorem writeDiscarded_cntBlocks (bit : Bool) (s : State) : (writeDiscarded bit s).cntBlocks = s.cntBlocks := by rw [writeDiscarded_eq]
@[simp] theorem writeDiscarded_cntFail (bit : Bool) (s : State) : (writeDiscarded bit s).cntFail = s.cntFail := by rw [writeDiscarded_eq]
@[simp] theorem writeDiscarded_cntEmit (bit : Bool) (s : State) : (writeDiscarded bit s).cntEmit = s.cntEmit := by rw [writeDiscarded_eq]
@[simp] theorem writeDiscarded_cntUnprimed (bit : Bool) (s : State) : (writeDiscarded bit s).cntUnprimed = s.cntUnprimed := by rw [writeDiscarded_eq]
@[simp] theorem writeDiscarded_trace (bit : Bool) (s : State) : (writeDiscarded bit s).trace = s.trace := by rw [writeDiscarded_eq]
@[simp] theorem writeDiscarded_past (bit : Bool) (s : State) : (writeDiscarded bit s).past = s.past := by rw [writeDiscarded_eq]
@[simp] theorem writeDiscarded_pending (bit : Bool) (s : State) : (writeDiscarded bit s).pending = s.pending := by rw [writeDiscarded_eq]
@[simp] theorem writeDiscarded_resetDone (bit : Bool) (s : State) : (writeDiscarded bit s).resetDone = s.resetDone := by rw [writeDiscarded_eq]
@[simp] theorem writeDiscarded_draws (bit : Bool) (s : State) : (writeDiscarded bit s).draws = s.draws := by rw [writeDiscarded_eq]
@[simp] theorem writeDiscarded_ret (bit : Bool) (s : State) : (writeDiscarded bit s).ret = s.ret := by rw [writeDiscarded_eq]

/-! ### PAIR and PUSH -/

/-- What PAIR does when it answers a next state (R102). -/
theorem pair_cases {b0 b1 : Bool} {s t : State} (h : pair b0 b1 s = .next t) :
    (b0 ≠ b1 ∧ accept b0 s = .next t) ∨ (b0 = b1 ∧ ∃ u, discard b0 s = .next u ∧ discard b1 u = .next t) := by
  unfold pair at h
  split at h
  · exact .inl ⟨by assumption, h⟩
  · next hb => exact .inr ⟨by simpa using hb, andThen_eq_next.1 h⟩

/-- What PUSH does when it answers a next state (R100). -/
theorem push_cases {b : Byte} {s t : State} (h : execPush b s = .next t) :
    ∃ s1 s2 s3, pairOf b 0 s = .next s1 ∧ pairOf b 1 s1 = .next s2 ∧ pairOf b 2 s2 = .next s3 ∧
      t = respond 0#32 false s3 := by
  obtain ⟨s1, h1, h⟩ := andThen_eq_next.1 h
  obtain ⟨s2, h2, h⟩ := andThen_eq_next.1 h
  obtain ⟨s3, h3, h⟩ := andThen_eq_next.1 h
  exact ⟨s1, s2, s3, h1, h2, h3, by simpa using h.symm⟩

/-- A property that ACCEPT, DISCARD and a response keep is kept by PUSH. -/
theorem push_keeps (P : State → Prop) {b : Byte} {s t : State}
    (hacc : ∀ bit s t, P s → accept bit s = .next t → P t)
    (hdis : ∀ bit0 s t u, P s → discard bit0 s = .next t → discard bit0 t = .next u → P u)
    (hrsp : ∀ d e s, P s → P (respond d e s)) (hs : P s) (h : execPush b s = .next t) : P t := by
  have hpair : ∀ b0 b1 s t, P s → pair b0 b1 s = .next t → P t := by
    intro b0 b1 s t hs h
    rcases pair_cases h with ⟨-, h⟩ | ⟨rfl, u, h1, h2⟩
    · exact hacc _ _ _ hs h
    · exact hdis _ _ _ _ hs h1 h2
  obtain ⟨s1, s2, s3, h1, h2, h3, rfl⟩ := push_cases h
  exact hrsp _ _ _ (hpair _ _ _ _ (hpair _ _ _ _ (hpair _ _ _ _ hs h1) h2) h3)

/-- The same, bit by bit. -/
theorem push_keeps_bits (P : State → Prop) {b : Byte} {s t : State} (hacc : ∀ bit s t, P s → accept bit s = .next t → P t)
    (hdis : ∀ bit s t, P s → discard bit s = .next t → P t) (hrsp : ∀ d e s, P s → P (respond d e s)) (hs : P s)
    (h : execPush b s = .next t) : P t :=
  push_keeps P hacc (fun _ _ _ _ hs h1 h2 => hdis _ _ _ (hdis _ _ _ hs h1) h2) hrsp hs h

end Sys2Proof.Machine
end

