-- ==== Sys2Proof/Laws/Fips.lean ====
section
/-! SUPPORT. What the operations with a block operand can do, said once; the bounds check; the bits of the mask. -/

namespace Sys2Proof.Machine

/-- A block operand of B bytes: the operation runs. -/
theorem withBlock_next {blk : Block} {s : State} (f : Block → State → State) (h : blk.length = s.par.B) :
    withBlock blk s f = .next (f blk s) := if_pos h

/-- Any other list: refused by name (log 10). -/
theorem withBlock_refused {blk : Block} {s : State} (f : Block → State → State) (h : blk.length ≠ s.par.B) :
    withBlock blk s f = .refused .blockLength := if_neg h

/-- What an operation with a block operand does when it answers a next state. -/
theorem withBlock_cases {blk : Block} {s t : State} {f : Block → State → State} (h : withBlock blk s f = .next t) :
    blk.length = s.par.B ∧ t = f blk s := by
  unfold withBlock at h
  split at h
  · next hb => exact ⟨hb, by simpa using h.symm⟩
  · simp at h

/-- A statistic fails iff it lies outside its inclusive bounds (41_fips_validator.md R131). -/
theorem outside_iff (lo hi x : Nat) : outside lo hi x = true ↔ ¬ (lo ≤ x ∧ x ≤ hi) := by
  simp [outside]; omega

@[simp] theorem packMask_mono (a b c d e : Bool) : (packMask a b c d e).getLsbD 0 = a := by revert a b c d e; decide
@[simp] theorem packMask_pok (a b c d e : Bool) : (packMask a b c d e).getLsbD 1 = b := by revert a b c d e; decide
@[simp] theorem packMask_runs (a b c d e : Bool) : (packMask a b c d e).getLsbD 2 = c := by revert a b c d e; decide
@[simp] theorem packMask_long (a b c d e : Bool) : (packMask a b c d e).getLsbD 3 = d := by revert a b c d e; decide
@[simp] theorem packMask_cont (a b c d e : Bool) : (packMask a b c d e).getLsbD 4 = e := by revert a b c d e; decide

@[simp] theorem byteBits_length (b : Byte) : (byteBits b).length = 8 := rfl

end Sys2Proof.Machine
end

