-- ==== Sys2Proof/Laws/PerInstr.lean ====
section
/-! SUPPORT. Laws stated for every operation as syntax, one lemma for each constructor of `Instr`. -/

namespace Sys2Proof.Laws

/-- The command word of an operation lies in the row of the opcode map (30_encoding.md R82) that has its mnemonic; an
operation has no command word if and only if no row has its mnemonic (R83). -/
def EncodeMatchesRow.Statement (i : Instr) : Prop :=
  (∀ w, encode i = some w → ∃ row ∈ opcodeRows, row.1 = i.mnemonic ∧ rowMatches w row = true) ∧
    (encode i = none ↔ ∀ row ∈ opcodeRows, row.1 ≠ i.mnemonic)

/-- The row's mask keeps the opcode and nothing of the operand. -/
theorem commandWord_masked (op : BitVec 2) (arg : Byte) : commandWord op arg &&& 0x300#10 = op ++ 0#8 := by
  revert op arg; decide

theorem EncodeMatchesRow.nop (arg : Byte) : EncodeMatchesRow.Statement (.nop arg) := by
  refine ⟨fun w h => ?_, by simp [Sys2Proof.encode, opcodeRows, Instr.mnemonic]⟩
  obtain rfl : commandWord 0b00#2 arg = w := by simpa [Sys2Proof.encode] using h
  simp [opcodeRows, Instr.mnemonic, rowMatches, commandWord_masked]

theorem EncodeMatchesRow.push (b : Byte) : EncodeMatchesRow.Statement (.push b) := by
  refine ⟨fun w h => ?_, by simp [Sys2Proof.encode, opcodeRows, Instr.mnemonic]⟩
  obtain rfl : commandWord 0b01#2 b = w := by simpa [Sys2Proof.encode] using h
  simp [opcodeRows, Instr.mnemonic, rowMatches, commandWord_masked]

theorem EncodeMatchesRow.rd (a : Byte) : EncodeMatchesRow.Statement (.rd a) := by
  refine ⟨fun w h => ?_, by simp [Sys2Proof.encode, opcodeRows, Instr.mnemonic]⟩
  obtain rfl : commandWord 0b10#2 a = w := by simpa [Sys2Proof.encode] using h
  simp [opcodeRows, Instr.mnemonic, rowMatches, commandWord_masked]

theorem EncodeMatchesRow.reserved (arg : Byte) : EncodeMatchesRow.Statement (.reserved arg) := by
  refine ⟨fun w h => ?_, by simp [Sys2Proof.encode, opcodeRows, Instr.mnemonic]⟩
  obtain rfl : commandWord 0b11#2 arg = w := by simpa [Sys2Proof.encode] using h
  simp [opcodeRows, Instr.mnemonic, rowMatches, commandWord_masked]

theorem EncodeMatchesRow.pair (b0 b1 : Bool) : EncodeMatchesRow.Statement (.pair b0 b1) := by
  simp [EncodeMatchesRow.Statement, Sys2Proof.encode, opcodeRows, Instr.mnemonic]

theorem EncodeMatchesRow.accept (bit : Bool) : EncodeMatchesRow.Statement (.accept bit) := by
  simp [EncodeMatchesRow.Statement, Sys2Proof.encode, opcodeRows, Instr.mnemonic]

theorem EncodeMatchesRow.discard (bit : Bool) : EncodeMatchesRow.Statement (.discard bit) := by
  simp [EncodeMatchesRow.Statement, Sys2Proof.encode, opcodeRows, Instr.mnemonic]

theorem EncodeMatchesRow.blockCycle : EncodeMatchesRow.Statement .blockCycle := by
  simp [EncodeMatchesRow.Statement, Sys2Proof.encode, opcodeRows, Instr.mnemonic]

theorem EncodeMatchesRow.fips (blk : Block) : EncodeMatchesRow.Statement (.fips blk) := by
  simp [EncodeMatchesRow.Statement, Sys2Proof.encode, opcodeRows, Instr.mnemonic]

theorem EncodeMatchesRow.monobit (blk : Block) : EncodeMatchesRow.Statement (.monobit blk) := by
  simp [EncodeMatchesRow.Statement, Sys2Proof.encode, opcodeRows, Instr.mnemonic]

theorem EncodeMatchesRow.poker (blk : Block) : EncodeMatchesRow.Statement (.poker blk) := by
  simp [EncodeMatchesRow.Statement, Sys2Proof.encode, opcodeRows, Instr.mnemonic]

theorem EncodeMatchesRow.runs (blk : Block) : EncodeMatchesRow.Statement (.runs blk) := by
  simp [EncodeMatchesRow.Statement, Sys2Proof.encode, opcodeRows, Instr.mnemonic]

theorem EncodeMatchesRow.longrun (blk : Block) : EncodeMatchesRow.Statement (.longrun blk) := by
  simp [EncodeMatchesRow.Statement, Sys2Proof.encode, opcodeRows, Instr.mnemonic]

theorem EncodeMatchesRow.contrun (blk : Block) : EncodeMatchesRow.Statement (.contrun blk) := by
  simp [EncodeMatchesRow.Statement, Sys2Proof.encode, opcodeRows, Instr.mnemonic]

theorem EncodeMatchesRow.encode (blk : Block) : EncodeMatchesRow.Statement (.encode blk) := by
  simp [EncodeMatchesRow.Statement, Sys2Proof.encode, opcodeRows, Instr.mnemonic]

theorem EncodeMatchesRow.whiten (blk : Block) : EncodeMatchesRow.Statement (.whiten blk) := by
  simp [EncodeMatchesRow.Statement, Sys2Proof.encode, opcodeRows, Instr.mnemonic]

theorem EncodeMatchesRow.encrypt (blk : Block) : EncodeMatchesRow.Statement (.encrypt blk) := by
  simp [EncodeMatchesRow.Statement, Sys2Proof.encode, opcodeRows, Instr.mnemonic]

theorem EncodeMatchesRow.keyDerive : EncodeMatchesRow.Statement .keyDerive := by
  simp [EncodeMatchesRow.Statement, Sys2Proof.encode, opcodeRows, Instr.mnemonic]

theorem EncodeMatchesRow.unprimed (blk : Block) : EncodeMatchesRow.Statement (.unprimed blk) := by
  simp [EncodeMatchesRow.Statement, Sys2Proof.encode, opcodeRows, Instr.mnemonic]

end Sys2Proof.Laws
end

