-- ==== Sys2Proof/Laws/Step.lean ====
section
/-! SUPPORT. What one step can do, said once, and the packaging of an invariant of the step as four small goals. -/

namespace Sys2Proof.Machine

/-- What one step can do when it answers a next state (00_scope.md R16, 70_reset_and_hazards.md R246). -/
theorem step_cases {s t : State} (h : step s = .next t) :
    s.par.valid = true ∧
      ((s.pending = [] ∧ t = s) ∨
        (∃ w rest, s.pending = .cmd w :: rest ∧ s.resetDone = true ∧ exec (decode w) { s with pending := rest } = .next t) ∨
        (∃ enc pol rest, s.pending = .rst enc pol :: rest ∧ t = pulseReset enc pol { s with pending := rest }) ∨
        (∃ w cut enc pol rest u, s.pending = .rstDuring w cut enc pol :: rest ∧ s.resetDone = true ∧
          exec (decode w) { s with pending := rest } = .next u ∧ t = abandon cut enc pol { s with pending := rest } u)) := by
  unfold step at h
  split at h
  · next hv =>
    refine ⟨hv, ?_⟩
    unfold takeInput at h
    split at h
    · next hp => exact .inl ⟨hp, by simpa using h.symm⟩
    · next i rest hp =>
      cases i with
      | cmd w =>
        simp only [serve, command] at h
        split at h
        · next hr => exact .inr (.inl ⟨w, rest, hp, hr, h⟩)
        · simp at h
      | rst enc pol => exact .inr (.inr (.inl ⟨enc, pol, rest, hp, by simpa [serve] using h.symm⟩))
      | rstDuring w cut enc pol =>
        obtain ⟨u, hu, h⟩ := andThen_eq_next.1 h
        simp only [command] at hu
        split at hu
        · next hr => exact .inr (.inr (.inr ⟨w, cut, enc, pol, rest, u, hp, hr, hu, by simpa using h.symm⟩))
        · simp at hu
  · simp at h

/-- A reset, whatever it cuts short, leaves a state of the reset table (10_state.md R50) but for the model's own fields. -/
theorem abandon_eq (cut : Cut) (enc pol : Strap) (s t : State) :
    abandon cut enc pol s t = pulseReset enc pol (s.withTrace (cutTrace cut s.trace t.trace)) := rfl

/-- Wherever a reset cuts a transaction, its response is lost (70_reset_and_hazards.md R240). -/
@[simp] theorem cutTrace_rsps (cut : Cut) (old new : Trace) : (cutTrace cut old new).rsps = old.rsps := by cases cut <;> rfl

/-- Before the emission nothing is put out (70_reset_and_hazards.md R260). -/
@[simp] theorem cutTrace_hashing_out (n : Nat) (old new : Trace) : (cutTrace (.hashing n) old new).out = old.out := rfl
@[simp] theorem cutTrace_ciphering_out (k p : Nat) (old new : Trace) : (cutTrace (.ciphering k p) old new).out = old.out := rfl

/-- The cipher is given nothing before the whole hash request. -/
@[simp] theorem cutTrace_hashing_cipherCalls (n : Nat) (old new : Trace) :
    (cutTrace (.hashing n) old new).cipherCalls = old.cipherCalls := rfl
@[simp] theorem cutTrace_ciphering_hashCalls (k p : Nat) (old new : Trace) :
    (cutTrace (.ciphering k p) old new).hashCalls = new.hashCalls := rfl

/-- A property of states that holds after every reset, does not look at the pending inputs, and is kept by every command,
is kept by every step. -/
theorem step_keeps (P : State → Prop)
    (hpend : ∀ s rest, P s → P { s with pending := rest })
    (hrst : ∀ enc pol s, s.par.valid = true → P (pulseReset enc pol s))
    (hnop : ∀ d e s, P s → P (respond d e s))
    (hbad : ∀ s, P s → P (raise .badCommand s))
    (hpush : ∀ b s t, s.par.valid = true → P s → execPush b s = .next t → P t)
    {s t : State} (hs : P s) (h : step s = .next t) : P t := by
  obtain ⟨hv, ⟨-, rfl⟩ | ⟨w, rest, -, -, h⟩ | ⟨enc, pol, rest, -, rfl⟩ | ⟨w, cut, enc, pol, rest, u, -, -, -, rfl⟩⟩ := step_cases h
  · exact hs
  · have hs' := hpend s rest hs
    unfold decode at h
    split at h
    · obtain rfl : respond 0#32 false { s with pending := rest } = t := by simpa [exec, execNop] using h
      exact hnop _ _ _ hs'
    · exact hpush _ { s with pending := rest } _ hv hs' h
    · obtain rfl : respond (reg (argField w) { s with pending := rest }) false { s with pending := rest } = t := by
        simpa [exec, execRd] using h
      exact hnop _ _ _ hs'
    · obtain rfl : respond 0#32 true (raise .badCommand { s with pending := rest }) = t := by
        simpa [exec, execReserved] using h
      exact hnop _ _ _ (hbad _ hs')
  · exact hrst _ _ _ hv
  · exact hrst _ _ _ hv

end Sys2Proof.Machine
end

