-- ==== Sys2Proof/Tests/Slice0.lean ====
section
/-! SUPPORT. Tests of the model and witnesses for the hypotheses of the statements. Expected values come from
spec/95_test_vectors.md (the vector is named) or from a rule worked by hand (the rule is named). -/

namespace Sys2Proof.Tests

open Sys2Proof.Machine

/-! ### Helpers -/

/-- `CFG_OPEN(B, L)` with the lengths of the toy collaborators of 95_test_vectors.md. -/
def cfg (B L : Nat) : Params := Params.openCfg B L 1 2

/-- The configuration of program P3: CFG_OPEN(1, 1) with LONGRUN_MAX = 7. -/
def cfgP3 : Params := { cfg 1 1 with FB := { Bounds.open 1 with longrunMax := 7 } }

/-- Right after reset, whitening mode. -/
def fresh (p : Params) : State := State.resetOf p false false

/-- Right after reset, encrypted mode, the policy given. -/
def freshE (p : Params) (pol : Bool) : State := State.resetOf p true pol

/-- An outcome is a next state that passes a check. -/
def nextIs (r : Result) (check : State → Bool) : Bool :=
  match r with
  | .next s => check s
  | .fault _ => false
  | .refused _ => false

/-- The next state of an outcome, for witnesses. -/
def nextOf (r : Result) (d : State) : State :=
  match r with
  | .next s => s
  | .fault _ => d
  | .refused _ => d

/-- An outcome is this refusal. -/
def refusedWith (r : Result) (why : Refusal) : Bool :=
  match r with
  | .next _ => false
  | .fault _ => false
  | .refused q => q == why

/-- A block of B = 1 one bit short of full, with the seven bits given. -/
def almost (b : Byte) (s : State) : State := { s with ebuf := [(0, b)], eBit := 7 }

/-! ### Well-formedness -/

theorem test_wf_block_too_short : Instr.wf (cfg 4 2) (.fips [0x0F#8]) = false := by decide
theorem test_wf_block_too_long : Instr.wf (cfg 1 1) (.unprimed [0x0F#8, 0x0F#8]) = false := by decide
theorem test_wf_block : Instr.wf (cfg 1 1) (.whiten [0x0F#8]) = true := by decide
theorem test_wf_params_B : (cfg 0 1).valid = false := by decide
theorem test_wf_params_L : (cfg 1 0).valid = false := by decide
theorem test_wf_params_DLEN : (Params.openCfg 1 1 0 2).valid = false := by decide
theorem test_wf_params_CLEN : (Params.openCfg 1 1 1 0).valid = false := by decide
theorem test_wf_params : (cfg 1 1).valid = true := by decide

/-! ### Decoding: words written out from 30_encoding.md R80 to R82 -/

/-- `op` = 00, `arg` = 11111111 (V40). -/
theorem test_decode_nop : decode 0b0011111111#10 = .nop 0xFF#8 := by decide
/-- `op` = 01, `arg` = 00010101 (P1 command 0). -/
theorem test_decode_push : decode 0b0100010101#10 = .push 0x15#8 := by decide
/-- `op` = 10, `arg` = 00001010 (V41). -/
theorem test_decode_rd : decode 0b1000001010#10 = .rd 0x0A#8 := by decide
/-- `op` = 11, `arg` = 00000000 (V42). -/
theorem test_decode_reserved : decode 0b1100000000#10 = .reserved 0x00#8 := by decide
theorem test_decode_table_word : decodeTableWord 10 0x129 = some (.push 0x29#8) := by decide
/-- A command word has 10 bits (R80). -/
theorem test_decode_too_wide : decodeTableWord 16 0x400 = none := by decide
theorem test_decode_rejects_by_name : (match decodeNat 0x400 with | .error e => e == .wordTooWide | .ok _ => false) = true := by decide
theorem test_encode_push : encode (.push 0x29#8) = some 0x129#10 := by decide
/-- The internal operations have no encoding (R83). -/
theorem test_encode_internal : encode (.pair true false) = none := by decide

/-! ### One step of each instruction -/

/-- V40. -/
theorem test_nop : nextIs (exec (.nop 0xFF#8) (fresh (cfg 1 1)))
    (fun t => t == { fresh (cfg 1 1) with trace := { Trace.empty with rsps := [⟨0#32, false⟩] } }) = true := by decide
/-- P1, command 10: accepts 0, 0, which fills the block, then 1 into the new one. -/
theorem test_push_across_a_block : nextIs
    (exec (.push 0x1A#8) { fresh (cfg 4 2) with ebuf := [(0, 0x0F#8), (1, 0x0F#8), (2, 0x0F#8), (3, 0x0F#8)], eByte := 3, eBit := 6 })
    (fun t => t.ebuf == [(0, 0x01#8)] && t.ecur == 1 && t.cntBlocks == 1#32 && t.prev.block 4 == [0x0F#8, 0x0F#8, 0x0F#8, 0x0F#8]
      && t.prevValid && t.trace.out == [] && t.pcur == 0) = true := by decide
/-- V15: the ring replaces bits, and the wrap sets `primed`. -/
theorem test_push_replaces_in_the_pool : nextIs (exec (.push 0x00#8) { fresh (cfg 1 1) with pool := [(0, 0x3F#8)], pBit := 6 })
    (fun t => t.pool == [(0, 0x30#8)] && t.pcur == 4 && t.primed && t.ecur == 0) = true := by decide
/-- P3, command 14: `rd STATUS` = 0x1E. -/
theorem test_rd_status : nextIs (exec (.rd 0x01#8) { fresh cfgP3 with errCmd := true, fcValid := true, lastValid := true, prevValid := true })
    (fun t => t.trace.rsps == [⟨0x1E#32, false⟩]) = true := by decide
/-- V43: `rd CFG` with enc = 0, pol = 1. -/
theorem test_rd_cfg : nextIs (exec (.rd 0x00#8) (State.resetOf (cfg 1 1) false true))
    (fun t => t.trace.rsps == [⟨0x2#32, false⟩]) = true := by decide
/-- V42. -/
theorem test_reserved : nextIs (exec (.reserved 0xFF#8) (fresh (cfg 1 1)))
    (fun t => t.errCmd && t.trace.rsps == [⟨0#32, true⟩] && t.trace.events == [.badCommand]) = true := by decide
/-- R102: an equal pair discards its two bits. -/
theorem test_pair_equal : nextIs (exec (.pair true true) (fresh (cfg 1 1)))
    (fun t => t.pool == [(0, 0x03#8)] && t.pcur == 2 && t.ecur == 0) = true := by decide
/-- R102: a differing pair accepts its FIRST bit. -/
theorem test_pair_differing : nextIs (exec (.pair true false) (fresh (cfg 1 1)))
    (fun t => t.ebuf == [(0, 0x01#8)] && t.ecur == 1 && t.pcur == 0) = true := by decide
/-- V13: the 9th accepted bit is bit 0 of byte 1. -/
theorem test_accept_next_byte : nextIs (exec (.accept true) { fresh (cfg 4 2) with ebuf := [(0, 0x0F#8)], eByte := 1 })
    (fun t => t.ebuf.block 4 == [0x0F#8, 0x01#8, 0x00#8, 0x00#8] && t.ecur == 9) = true := by decide
/-- P3, command 2: block FF, longest run 8 > 7: mask 0x08, discarded. -/
theorem test_accept_fills_a_failing_block : nextIs (exec (.accept true) (almost 0x7F#8 (fresh cfgP3)))
    (fun t => t.lastMask == 0x08#5 && t.accMask == 0x08#5 && t.cntBlocks == 1#32 && t.cntFail == 1#32 && t.ebuf == [] && t.ecur == 0
      && !t.prevValid && t.fcLen == ⟨0, 8⟩ && t.fcPos == ⟨0, 0⟩ && t.trace.events == [.fipsFail 0x08#5]) = true := by decide
/-- V10: the 8th discarded bit wraps the cursor and sets `primed`; V15: it replaces. -/
theorem test_discard_wraps : nextIs (exec (.discard false) { fresh (cfg 1 1) with pool := [(0, 0xBF#8)], pBit := 7 })
    (fun t => t.pool == [(0, 0x3F#8)] && t.primed && t.pcur == 0) = true := by decide
/-- V10b: the 12th bit of a ring of two bytes does not wrap it. -/
theorem test_discard_second_byte : nextIs (exec (.discard true) { fresh (cfg 4 2) with pool := [(0, 0xFF#8), (1, 0x07#8)], pByte := 1, pBit := 3 })
    (fun t => t.pool == [(0, 0xFF#8), (1, 0x0F#8)] && !t.primed && t.pcur == 12) = true := by decide
/-- P3, command 9: block 55 again: continuous-run fails, mask 0x10, `prev` stays. -/
theorem test_blockCycle_contrun : nextIs
    (exec .blockCycle { fresh cfgP3 with
      ebuf := [(0, 0x55#8)], eByte := 1, prev := [(0, 0x55#8)], prevValid := true, fcValid := true, fcLen := ⟨1, 1⟩, fcPos := ⟨1, 0⟩,
      lastValid := true, accMask := 0x08#5, cntBlocks := 2#32, cntFail := 1#32 })
    (fun t => t.lastMask == 0x10#5 && t.accMask == 0x18#5 && t.cntBlocks == 3#32 && t.cntFail == 2#32 && t.prev == [(0, 0x55#8)]
      && t.trace.out == [] && t.ecur == 0) = true := by decide
/-- V36: saturation at a failing block. -/
theorem test_blockCycle_saturates : nextIs
    (exec .blockCycle { fresh cfgP3 with ebuf := [(0, 0xFF#8)], eByte := 1, cntFail := 0xFFFFFFFF#32, cntBlocks := 0xFFFFFFFE#32 })
    (fun t => t.cntFail == 0xFFFFFFFF#32 && t.cntBlocks == 0xFFFFFFFF#32) = true := by decide
/-- V29: block F1 leaves `fc_len` = (3,4), `fc_pos` = (1,4); FB open: mask 0. -/
theorem test_fips_small_block : nextIs (exec (.fips [0xF1#8]) (fresh (cfg 1 1)))
    (fun t => t.ret == .mask 0x00#5 && t.fcValid && t.fcLen == ⟨3, 4⟩ && t.fcPos == ⟨1, 4⟩) = true := by decide
/-- V29: FF 00 FF 00, first of two equally long runs: `ext.pos` = (8,0). -/
theorem test_fips_first_longest : nextIs (exec (.fips [0xFF#8, 0x00#8, 0xFF#8, 0x00#8]) (fresh (cfg 4 2)))
    (fun t => t.fcLen == ⟨8, 8⟩ && t.fcPos == ⟨8, 0⟩) = true := by decide
/-- V29: n1 = 16; R131: inclusive bounds. -/
theorem test_monobit_bound : nextIs
    (exec (.monobit [0x0F#8, 0x0F#8, 0x0F#8, 0x0F#8]) (fresh { cfg 4 2 with FB := { Bounds.open 4 with monoMin := 16, monoMax := 16 } }))
    (fun t => t.ret == .failed false) = true := by decide
theorem test_monobit_outside : nextIs
    (exec (.monobit [0x0F#8, 0x0F#8, 0x0F#8, 0x0F#8]) (fresh { cfg 4 2 with FB := { Bounds.open 4 with monoMin := 17 } }))
    (fun t => t.ret == .failed true) = true := by decide
/-- V29: S = 32. -/
theorem test_poker_bound : nextIs
    (exec (.poker [0x0F#8, 0x0F#8, 0x0F#8, 0x0F#8]) (fresh { cfg 4 2 with FB := { Bounds.open 4 with pokerMin := 32, pokerMax := 32 } }))
    (fun t => t.ret == .failed false) = true := by decide
theorem test_poker_outside : nextIs
    (exec (.poker [0x0F#8, 0x0F#8, 0x0F#8, 0x0F#8]) (fresh { cfg 4 2 with FB := { Bounds.open 4 with pokerMax := 31 } }))
    (fun t => t.ret == .failed true) = true := by decide
/-- V29: block F1 has runs (1,1), (0,3), (1,4): one run of ones of length 4 (R135). -/
theorem test_runs_bucket : nextIs
    (exec (.runs [0xF1#8]) (fresh { cfg 1 1 with FB := { Bounds.open 1 with runMax := #v[1, 0, 1, 1, 0, 0] } }))
    (fun t => t.ret == .failed false) = true := by decide
theorem test_runs_outside : nextIs
    (exec (.runs [0xF1#8]) (fresh { cfg 1 1 with FB := { Bounds.open 1 with runMax := #v[8, 8, 8, 0, 8, 8] } }))
    (fun t => t.ret == .failed true) = true := by decide
/-- V26's boundary in small: a run of LONGRUN_MAX passes, one longer fails (R136). -/
theorem test_longrun_bound : nextIs (exec (.longrun [0x7F#8]) (fresh cfgP3)) (fun t => t.ret == .failed false) = true := by decide
theorem test_longrun_outside : nextIs (exec (.longrun [0x00#8]) (fresh cfgP3)) (fun t => t.ret == .failed true) = true := by decide
/-- R137: same lengths, another place: no failure. -/
theorem test_contrun_moved : nextIs (exec (.contrun [0xAA#8]) { fresh (cfg 1 1) with fcValid := true, fcLen := ⟨1, 1⟩, fcPos := ⟨1, 0⟩ })
    (fun t => t.ret == .failed false) = true := by decide
/-- R137: one value's extreme is enough; a value without a run never counts. -/
theorem test_contrun_one_value : nextIs (exec (.contrun [0xFF#8]) { fresh (cfg 1 1) with fcValid := true, fcLen := ⟨0, 8⟩, fcPos := ⟨0, 0⟩ })
    (fun t => t.ret == .failed true && t.fcLen == ⟨0, 8⟩) = true := by decide
/-- V1, second block, through ENCODE in whitening mode. -/
theorem test_encode : nextIs
    (exec (.encode [0xFF#8, 0x00#8, 0xFF#8, 0x00#8])
      { fresh (cfg 4 2) with prev := [(0, 0x0F#8), (1, 0x0F#8), (2, 0x0F#8), (3, 0x0F#8)], prevValid := true })
    (fun t => t.trace.out == [0xF0#8, 0x0F#8, 0xF0#8, 0x0F#8] && t.prev == [(0, 0xFF#8), (2, 0xFF#8)] && t.cntEmit == 1#32) = true := by decide
/-- V30. -/
theorem test_whiten_first : nextIs (exec (.whiten [0x12#8, 0x34#8, 0x56#8, 0x78#8]) (fresh (cfg 4 2)))
    (fun t => t.trace.out == [] && t.prev.block 4 == [0x12#8, 0x34#8, 0x56#8, 0x78#8] && t.prevValid && t.cntEmit == 0#32) = true := by decide
/-- V31, the second of its blocks. -/
theorem test_whiten_later : nextIs
    (exec (.whiten [0xFF#8, 0xFF#8, 0xFF#8, 0xFF#8])
      { fresh (cfg 4 2) with prev := [(0, 0x12#8), (1, 0x34#8), (2, 0x56#8), (3, 0x78#8)], prevValid := true })
    (fun t => t.trace.out == [0xED#8, 0xCB#8, 0xA9#8, 0x87#8] && t.prev.block 4 == [0xFF#8, 0xFF#8, 0xFF#8, 0xFF#8]) = true := by decide
/-- V33, but for the toy collaborators' values: what HASH and CIPHER see, CLEN bytes emitted, the pool unchanged. -/
theorem test_encrypt_primed : nextIs (exec (.encrypt [0xF1#8]) { freshE (cfg 1 1) false with pool := [(0, 0x30#8)], primed := true })
    (fun t => t.trace.hashCalls == [[0x30#8]] && t.trace.cipherCalls.map CipherCall.pt == [[0xF1#8]] && t.trace.out.length == 2
      && t.cntEmit == 1#32 && t.pool == [(0, 0x30#8)] && t.primed && !t.prevValid) = true := by decide
/-- V34. -/
theorem test_encrypt_unprimed_drop : nextIs (exec (.encrypt [0xFF#8]) (freshE (cfg 1 1) false))
    (fun t => t.trace.out == [] && t.cntUnprimed == 1#32 && t.cntEmit == 0#32 && t.trace.hashCalls == []
      && t.trace.events == [.keyNotReady]) = true := by decide
/-- R166. -/
theorem test_keyDerive : nextIs (exec .keyDerive { freshE (cfg 1 1) false with pool := [(0, 0x0F#8)], pBit := 4 })
    (fun t => t.trace.hashCalls == [[0x0F#8]] && t.pool == [(0, 0x0F#8)] && t.pcur == 4) = true := by decide
/-- V35. -/
theorem test_unprimed_pass : nextIs (exec (.unprimed [0xFF#8]) (freshE (cfg 1 1) true))
    (fun t => t.trace.out == [0xFF#8] && t.cntUnprimed == 1#32 && t.cntEmit == 1#32) = true := by decide
theorem test_unprimed_drop : nextIs (exec (.unprimed [0xFF#8]) (freshE (cfg 1 1) false))
    (fun t => t.trace.out == [] && t.cntUnprimed == 1#32 && t.cntEmit == 0#32) = true := by decide

/-! ### Steps -/

/-- V16, step 6, as a step of the machine: the key sees the pool before the later pairs. -/
theorem test_step_key_before_later_pairs : nextIs
    (step { almost 0x7F#8 (freshE (cfg 1 1) false) with pool := [(0, 0x0F#8)], primed := true, pending := [.cmd 0x101#10] })
    (fun t => t.trace.hashCalls == [[0x0F#8]] && t.trace.cipherCalls.map CipherCall.pt == [[0xFF#8]] && t.pool == [] && t.pcur == 4
      && t.ecur == 0 && t.cntBlocks == 1#32 && t.pending == []) = true := by decide
/-- The host's placed word is the next command, on this hardware's own reset state. -/
theorem test_withFetchWord : nextIs (step (State.reset.withFetchWord 10 0x115)) (fun t => t.ecur == 3 && t.ebuf == [(0, 0x07#8)]) = true := by
  decide
/-- R240: the state is gone, the straps are latched; U14: the byte handed over stays handed over, the event raised before. -/
theorem test_step_reset_in_a_transaction : nextIs
    (step { almost 0x7F#8 (freshE (cfg 1 1) true) with pending := [.rstDuring 0x101#10 (.emitting 1) .low .high] })
    (fun t => t == { State.resetOf (cfg 1 1) false true with
      past := [{ Trace.empty with out := [0xFF#8], events := [.keyNotReady] }], draws := 2 }) = true := by decide
/-- R165, R260: a reset while the cipher takes its input comes after the whole hash request and before any output. -/
theorem test_step_reset_while_ciphering : nextIs
    (step { almost 0x7F#8 (freshE (cfg 1 1) false) with
      pool := [(0, 0x0F#8)], primed := true, pending := [.rstDuring 0x101#10 (.ciphering 0 1) .low .low] })
    (fun t => t.past == [{ Trace.empty with hashCalls := [[0x0F#8]], cipherCalls := [⟨[], [0xFF#8]⟩] }] && t.ecur == 0
      && !t.primed) = true := by decide
/-- Log 14. -/
theorem test_step_before_reset : refusedWith (step { fresh (cfg 1 1) with resetDone := false, pending := [.cmd 0x000#10] }) .beforeFirstReset = true := by
  decide

/-! ### The canonical form of a memory -/

theorem test_memory_write_sorted : Memory.write [(0, 0x01#8), (5, 0x02#8)] 3 0xFF#8 = [(0, 0x01#8), (3, 0xFF#8), (5, 0x02#8)] := by decide
theorem test_memory_write_zero_removes : Memory.write [(0, 0x01#8), (5, 0x02#8)] 5 0x00#8 = [(0, 0x01#8)] := by decide

/-! ### Witnesses: for every statement with hypotheses, states and operands that meet them together, each clause at its bounds -/

/-- A machine ready for commands. -/
theorem ready_fresh : (fresh cfgP3).Ready :=
  ⟨by decide, by decide, ⟨⟨by decide, by decide⟩, ⟨by decide, by decide⟩, ⟨by decide, by decide⟩, ⟨by decide, by decide⟩⟩⟩

/-- A block one bit short of full: the next accepted bit runs a block cycle. -/
def nearly : State := almost 0x7F#8 (fresh cfgP3)

theorem ready_nearly : nearly.Ready :=
  ⟨by decide, by decide, ⟨⟨by decide, by decide⟩, ⟨by decide, by decide⟩, ⟨by decide, by decide⟩, ⟨by decide, by decide⟩⟩⟩

/-- Encrypted mode, primed, one bit short of full, a sample byte pending whose first pair fills the block. -/
def nearlyE : State :=
  { almost 0x7F#8 (freshE cfgP3 false) with pool := [(0, 0x0F#8)], primed := true, pending := [.cmd 0x101#10] }

theorem ready_nearlyE : nearlyE.Ready :=
  ⟨by decide, by decide, ⟨⟨by decide, by decide⟩, ⟨by decide, by decide⟩, ⟨by decide, by decide⟩, ⟨by decide, by decide⟩⟩⟩

theorem witness_ResetPulseLoadsTheResetState :
    let s := { nearly with pending := [.rst .low .high, .rst .high .low, .rst .unstable .unstable] }
    s.par.valid = true ∧ s.pending = .rst .low .high :: [.rst .high .low, .rst .unstable .unstable] := ⟨by decide, by decide⟩

/-- An encrypted transaction with one call of each core, to be cut short. -/
def cutShort (cut : Cut) : State := { nearlyE with pending := [.rstDuring 0x101#10 cut .low .high] }

theorem ready_cutShort (cut : Cut) : (cutShort cut).Ready :=
  ⟨ready_nearlyE.valid, ready_nearlyE.reset, ⟨ready_nearlyE.inv.cursors, ready_nearlyE.inv.memories⟩⟩

/-- Each kind of cut, with no byte handed over and with the last one. -/
theorem witness_ResetMidTransactionKeepsHandedOverBytes :
    ((cutShort (.hashing 0)).Ready ∧ (cutShort (.hashing 1)).Ready ∧ (cutShort (.ciphering 0 0)).Ready ∧
      (cutShort (.ciphering 1 1)).Ready ∧ (cutShort (.emitting 0)).Ready ∧ (cutShort (.emitting 2)).Ready) ∧
    (cutShort (.emitting 2)).pending = .rstDuring 0x101#10 (.emitting 2) .low .high :: [] :=
  ⟨⟨ready_cutShort _, ready_cutShort _, ready_cutShort _, ready_cutShort _, ready_cutShort _, ready_cutShort _⟩, rfl⟩

theorem witness_StepRunsTheDecodedCommand :
    nearlyE.par.valid = true ∧ nearlyE.resetDone = true ∧ nearlyE.pending = .cmd 0x101#10 :: [] := by decide

theorem witness_IdleKeepsAllState : (nearly.par.valid = true ∧ nearly.pending = []) := by decide

/-- Both clauses; the second with each parameter at 0. -/
theorem witness_MeaninglessRunsAreRefused :
    (let s := { nearlyE with resetDone := false };
      s.par.valid = true ∧ s.resetDone = false ∧ s.pending = .cmd 0x101#10 :: []) ∧
    (fresh (cfg 0 1)).par.B = 0 ∧ (fresh (cfg 1 0)).par.L = 0 ∧ (fresh (Params.openCfg 1 1 0 2)).par.DLEN = 0 ∧
      (fresh (Params.openCfg 1 1 1 0)).par.CLEN = 0 := by decide

/-- The first and last word of each row. -/
theorem witness_EveryWordDecodesToItsOneRow :
    0x000#10 &&& 0x300#10 = 0x000#10 ∧ 0x0FF#10 &&& 0x300#10 = 0x000#10 ∧ 0x100#10 &&& 0x300#10 = 0x100#10 ∧
    0x1FF#10 &&& 0x300#10 = 0x100#10 ∧ 0x200#10 &&& 0x300#10 = 0x200#10 ∧ 0x2FF#10 &&& 0x300#10 = 0x200#10 ∧
    0x300#10 &&& 0x300#10 = 0x300#10 ∧ 0x3FF#10 &&& 0x300#10 = 0x300#10 := by decide

theorem witness_DecodeAndEncodeAreInverse : encode (.nop 0x00#8) = some 0x000#10 ∧ encode (.reserved 0xFF#8) = some 0x3FF#10 := by decide

/-- Every address clause, the unmapped range at both ends, and cursors below 2^32. -/
theorem witness_RdAnswersTheRegister :
    nearlyE.ecur < 2 ^ 32 ∧ nearlyE.pcur < 2 ^ 32 ∧ 0x0A ≤ (0x0A#8 : Byte).toNat ∧ 0x0A ≤ (0xFF#8 : Byte).toNat ∧
    ([0x00#8, 0x01#8, 0x02#8, 0x03#8, 0x04#8, 0x05#8, 0x06#8, 0x07#8, 0x08#8, 0x09#8] : List Byte).all
      (fun a => decide (a.toNat < 0x0A) && nextIs (exec (.rd a) nearlyE) fun _ => true) = true := by decide

theorem witness_EveryCommandGivesOneResponse :
    ∃ t, (Instr.push 0x01#8).isCommand = true ∧ exec (.push 0x01#8) nearlyE = .next t := ⟨_, rfl, rfl⟩

theorem witness_PushRunsItsThreePairsInOrder :
    let s1 := nextOf (exec (.pair true false) nearlyE) nearlyE
    let s2 := nextOf (exec (.pair false false) s1) s1
    ∃ s3, exec (.pair ((0x01#8 : Byte).getLsbD 0) ((0x01#8 : Byte).getLsbD 1)) nearlyE = .next s1 ∧
      exec (.pair ((0x01#8 : Byte).getLsbD 2) ((0x01#8 : Byte).getLsbD 3)) s1 = .next s2 ∧
      exec (.pair ((0x01#8 : Byte).getLsbD 4) ((0x01#8 : Byte).getLsbD 5)) s2 = .next s3 := ⟨_, rfl, rfl, rfl⟩

/-- In range, at the last bit of a block and just before a wrap of the pool. -/
theorem witness_PushMovesTheCursorsByItsPairs :
    nearly.cursorsInRange ∧ nearly.ecur = 8 * nearly.par.B - 1 ∧ ({ nearly with pBit := 7 } : State).cursorsInRange :=
  ⟨⟨by decide, by decide⟩, by decide, ⟨by decide, by decide⟩⟩

/-- Each clause: both modes with a block cycle; no pair and all pairs differing; one bit short of the block cycle. -/
theorem witness_PushFrame :
    (∃ t, exec (.push 0x01#8) nearlyE = .next t ∧ nearlyE.cfgEncrypt = true) ∧
    (∃ t, exec (.push 0x01#8) nearly = .next t ∧ nearly.cfgEncrypt = false) ∧
    (∃ t, exec (.push 0x00#8) nearly = .next t ∧ differingPairs 0x00#8 = 0) ∧
    (∃ t, exec (.push 0x15#8) nearly = .next t ∧ differingPairs 0x15#8 = 3) ∧
    (let s := { nearly with eBit := 6 };
      (∃ t, exec (.push 0x01#8) s = .next t) ∧ s.ecur + differingPairs 0x01#8 + 1 = 8 * s.par.B) :=
  ⟨⟨_, rfl, rfl⟩, ⟨_, rfl, rfl⟩, ⟨_, rfl, by decide⟩, ⟨_, rfl, by decide⟩, ⟨_, rfl⟩, by decide⟩

/-- One bit short of a block cycle, the discards wrapping the pool; and with a block cycle. -/
theorem witness_PushLeavesEveryOtherBit :
    (let s := { nearly with eBit := 6, pBit := 6 };
      s.ebuf.wf = true ∧ s.pool.wf = true ∧ s.prev.wf = true ∧ (∃ t, exec (.push 0x01#8) s = .next t) ∧
        s.ecur + differingPairs 0x01#8 + 1 = 8 * s.par.B) ∧
    nearlyE.ebuf.wf = true ∧ nearlyE.pool.wf = true ∧ nearlyE.prev.wf = true ∧ ∃ t, exec (.push 0x01#8) nearlyE = .next t :=
  ⟨⟨by decide, by decide, by decide, ⟨_, rfl⟩, by decide⟩, by decide, by decide, by decide, ⟨_, rfl⟩⟩

theorem witness_PairFollowsVonNeumann :
    (∃ t, true ≠ false ∧ exec (.pair true false) nearlyE = .next t) ∧
    (∃ u, true = true ∧ exec (.discard true) nearly = .next u) ∧ nearly.cursorsInRange :=
  ⟨⟨_, by decide, rfl⟩, ⟨_, rfl, rfl⟩, by decide, by decide⟩

/-- Both branches: the block is filled, or not yet. -/
theorem witness_AcceptWritesTheCursorBit :
    (nearly.ebuf.wf = true ∧ nearly.eByte < nearly.par.B ∧ nearly.ecur + 1 = 8 * nearly.par.B) ∧
    (let s := { nearly with eBit := 6 }; s.ebuf.wf = true ∧ s.eByte < s.par.B ∧ s.ecur + 1 < 8 * s.par.B) := by decide

/-- With the wrap and without it. -/
theorem witness_DiscardReplacesTheCursorBit :
    (let s := { nearly with pBit := 7 }; s.pool.wf = true ∧ s.pByte < s.par.L ∧ s.pcur + 1 = 8 * s.par.L) ∧
    (let s := { nearly with pBit := 6 }; s.pool.wf = true ∧ s.pByte < s.par.L ∧ s.pcur + 1 < 8 * s.par.L) := by decide

/-- One bit short of a fill, and exactly a fill. -/
theorem witness_PoolIsPrimedByTheLastBitOfAFill :
    cfgP3.valid = true ∧ ¬ 8 * cfgP3.L ≤ (List.replicate 7 true).length ∧ 8 * cfgP3.L ≤ (List.replicate 8 true).length := by decide

/-- The oldest and the newest bit that the ring still holds. -/
theorem witness_PoolHoldsTheLatestDiscardedBits :
    cfgP3.valid = true ∧
    (let bs := List.replicate 10 true;
      (2 < bs.length ∧ bs.length ≤ 2 + 8 * cfgP3.L) ∧ (9 < bs.length ∧ bs.length ≤ 9 + 8 * cfgP3.L)) := by decide

theorem witness_AcceptedBitsFormTheBlockInOrder :
    (fresh cfgP3).Ready ∧ (fresh cfgP3).clearBeyondCursor ∧ (fresh cfgP3).ecur = 0 ∧
      [true, false, false, false, true, true, true, true].length = 8 * (fresh cfgP3).par.B :=
  ⟨ready_fresh, fun n _ => by simp [fresh, State.resetOf, Memory.bitPos, Memory.bit], by decide, by decide⟩

theorem witness_FipsGivesTheFiveVerdicts : [0xFF#8].length = (fresh cfgP3).par.B := by decide

theorem witness_FlatSequenceIsTheBitsInOrder : 0 < [0xF1#8].length ∧ (0 : Nat) < 8 ∧ (7 : Nat) < 8 := by decide

/-- A block that fails and one that passes. -/
theorem witness_MonobitBoundsTheOnes :
    let s := fresh { cfg 1 1 with FB := { Bounds.open 1 with monoMin := 4, monoMax := 4 } }
    [0x1F#8].length = s.par.B ∧ nextIs (exec (.monobit [0x1F#8]) s) (fun t => t.ret == .failed true) = true ∧
      nextIs (exec (.monobit [0x0F#8]) s) (fun t => t.ret == .failed false) = true := by decide

/-- Block F1: nibbles 1 and 15, one of each. -/
theorem witness_PokerBoundsTheSquares :
    let nib : Nat → Nat := fun j => if j = 0 then 1 else 15
    let f : Nat → Nat := fun w => if w = 1 ∨ w = 15 then 1 else 0
    [0xF1#8].length = (fresh (cfg 1 1)).par.B ∧
    (∀ i < (fresh (cfg 1 1)).par.B,
      nib (2 * i) = ([0xF1#8].getD i 0x00#8).toNat % 16 ∧ nib (2 * i + 1) = ([0xF1#8].getD i 0x00#8).toNat / 16) ∧
    (∀ w < 16, f w = ((Finset.range (2 * (fresh (cfg 1 1)).par.B)).filter fun j => nib j = w).card) := by decide

theorem witness_RunsTestBoundsEveryBucket :
    let s := fresh { cfg 1 1 with FB := { Bounds.open 1 with runMax := #v[8, 8, 8, 0, 8, 8] } }
    [0xF1#8].length = s.par.B ∧ nextIs (exec (.runs [0xF1#8]) s) (fun t => t.ret == .failed true) = true ∧
      nextIs (exec (.runs [0x55#8]) s) (fun t => t.ret == .failed false) = true := by decide

theorem witness_LongrunFindsAnyLongRun :
    [0xFF#8].length = (fresh cfgP3).par.B ∧ nextIs (exec (.longrun [0xFF#8]) (fresh cfgP3)) (fun t => t.ret == .failed true) = true ∧
      nextIs (exec (.longrun [0xFE#8]) (fresh cfgP3)) (fun t => t.ret == .failed false) = true := by decide

theorem witness_ContrunComparesTheExtremes :
    let s := { fresh cfgP3 with fcValid := true, fcLen := ⟨1, 1⟩, fcPos := ⟨1, 0⟩ }
    [0x55#8].length = s.par.B ∧ nextIs (exec (.contrun [0x55#8]) s) (fun t => t.ret == .failed true) = true ∧
      nextIs (exec (.contrun [0x55#8]) { s with fcValid := false }) (fun t => t.ret == .failed false) = true := by decide

theorem witness_RepeatedBlockFailsContrun :
    [0x55#8].length = (fresh cfgP3).par.B ∧ 1 ≤ (fresh cfgP3).par.B ∧ (fresh cfgP3).fcValid = false := by decide

theorem witness_FailingBlockIsDiscarded :
    let s := { fresh cfgP3 with ebuf := [(0, 0xFF#8)], eByte := 1 }
    s.ebuf.wf = true ∧ Fips (s.ebuf.block s.par.B) s 0x08#5 ∧ (0x08#5 : Mask) ≠ 0#5 :=
  ⟨by decide, ⟨_, rfl, by decide⟩, by decide⟩

theorem witness_PassingBlockIsEncoded :
    let s := { fresh cfgP3 with ebuf := [(0, 0x55#8)], eByte := 1 }
    s.ebuf.wf = true ∧ Fips (s.ebuf.block s.par.B) s 0#5 :=
  ⟨by decide, ⟨_, rfl, by decide⟩⟩

theorem witness_EncodeDispatchesOnTheMode :
    nearly.cfgEncrypt = false ∧ nearlyE.cfgEncrypt = true ∧ [0xFF#8].length = nearlyE.par.B := by decide

theorem witness_WhitenSeedsThenEmitsTheXor :
    nearly.prev.wf = true ∧ [0x0F#8].length = nearly.par.B ∧ nearly.prevValid = false ∧
    (let s := { nearly with prev := [(0, 0x55#8)], prevValid := true };
      s.prev.wf = true ∧ [0x0F#8].length = s.par.B ∧ s.prevValid = true) := by decide

theorem witness_WhitenedOutputRecoversTheBlock :
    let s := { nearly with prev := [(0, 0x55#8)], prevValid := true }
    [0x0F#8].length = s.par.B ∧ s.prevValid = true := by decide

theorem witness_EncryptUsesTheHashOfThePool :
    ([0xF1#8].length = nearlyE.par.B ∧ nearlyE.primed = true) ∧ (freshE cfgP3 true).primed = false := by decide

theorem witness_UnprimedDropsOrPasses :
    ([0xFF#8].length = (freshE cfgP3 false).par.B ∧ (freshE cfgP3 false).cfgPolicy = false) ∧
    ([0xFF#8].length = (freshE cfgP3 true).par.B ∧ (freshE cfgP3 true).cfgPolicy = true) := by decide

/-- Each clause at its bound: the cursor exactly at B, exactly at L, a block one byte short. -/
theorem witness_ExecStopsOutsideTheSpecByName :
    (let s := { nearly with eByte := 1, eBit := 0 }; s.par.B ≤ s.eByte ∧ s.eByte = s.par.B) ∧
    (let s := { nearly with pByte := 1 }; s.par.L ≤ s.pByte ∧ s.pByte = s.par.L) ∧
    ((Instr.encode []).block? = some [] ∧ ([] : Block).length ≠ nearly.par.B) := by decide

theorem witness_KeyIsTakenBeforeTheLaterPairs :
    nearlyE.Ready ∧ nearlyE.ecur + 1 = 8 * nearlyE.par.B ∧ (0x01#8 : Byte).getLsbD 0 ≠ (0x01#8 : Byte).getLsbD 1 ∧
      nextIs (exec (.accept true) { nearlyE with par := cfg 1 1 })
        (fun u => u.trace.hashCalls != nearlyE.trace.hashCalls) = true :=
  ⟨ready_nearlyE, by decide, by decide, by decide⟩

/-- The second clause: pair 0 equal, then differing; pair 1 fills the block with a hash call. -/
theorem witness_KeyIsTakenBeforeTheThirdPair :
    nearlyE.ecur + ((0x04#8 : Byte).getLsbD 0 != (0x04#8 : Byte).getLsbD 1).toNat + 1 = 8 * nearlyE.par.B ∧
    (0x04#8 : Byte).getLsbD 2 ≠ (0x04#8 : Byte).getLsbD 3 ∧
    (let s := { nearlyE with eBit := 6 };
      s.ecur + ((0x05#8 : Byte).getLsbD 0 != (0x05#8 : Byte).getLsbD 1).toNat + 1 = 8 * s.par.B ∧
        (0x05#8 : Byte).getLsbD 2 ≠ (0x05#8 : Byte).getLsbD 3) ∧
    nextIs (exec (.push 0x04#8) { nearlyE with par := cfg 1 1 }) (fun t => t.trace.hashCalls == [[0x0C#8]]) = true := by decide

/-- One of each command; the failing block raises an event. -/
theorem witness_AtMostOneEventPerTransaction :
    nearly.cursorsInRange ∧ (∃ t, exec (decode 0x101#10) nearly = .next t) ∧ (∃ t, exec (decode 0x201#10) nearly = .next t) ∧
      (∃ t, exec (decode 0x000#10) nearly = .next t) ∧ (∃ t, exec (decode 0x3FF#10) nearly = .next t) ∧
      nextIs (exec (decode 0x101#10) nearly) (fun t => t.trace.events == [.fipsFail 0x08#5]) = true :=
  ⟨⟨by decide, by decide⟩, ⟨_, rfl⟩, ⟨_, rfl⟩, ⟨_, rfl⟩, ⟨_, rfl⟩, by decide⟩

/-- A state in which everything sticky is set. -/
def sticky : State :=
  { nearlyE with
    prevValid := true, fcValid := true, lastValid := true, errCmd := true, accMask := 0x1F#5, cntBlocks := 0xFFFFFFFF#32,
    cntFail := 1#32, cntEmit := 1#32, cntUnprimed := 1#32 }

theorem witness_OnlyResetClearsStickyState :
    (∃ t, (Instr.push 0x01#8).isCommand = true ∧ exec (.push 0x01#8) sticky = .next t) ∧ sticky.primed = true ∧
      sticky.prevValid = true ∧ sticky.fcValid = true ∧ sticky.lastValid = true ∧ sticky.errCmd = true :=
  ⟨⟨_, rfl, rfl⟩, by decide⟩

/-- Encrypted with a hash call, encrypted without one, and whitening. -/
theorem witness_PoolReachesOnlyTheHash :
    (let s := { nearlyE with par := cfg 1 1 };
      ∃ t, (Instr.push 0x01#8).isCommand = true ∧ exec (.push 0x01#8) s = .next t ∧ t.trace.hashCalls ≠ s.trace.hashCalls) ∧
    (∃ t, exec (.push 0x00#8) nearlyE = .next t ∧ t.trace.hashCalls = nearlyE.trace.hashCalls) ∧
    (∃ t, exec (.push 0x01#8) nearly = .next t ∧ nearly.cfgEncrypt = false) :=
  ⟨⟨_, rfl, rfl, by decide⟩, ⟨_, rfl, rfl⟩, ⟨_, rfl, rfl⟩⟩

/-- Each clause with a call in it: the block cycle, the last bit of a block, a discard, a command. -/
theorem witness_NoKeyBeforeThePoolIsPrimed :
    let s := { nearlyE with par := cfg 1 1 }
    nextIs (exec .blockCycle s) (fun t => t.trace.hashCalls != s.trace.hashCalls) = true ∧
    s.eByte < s.par.B ∧ nextIs (exec (.accept true) s) (fun t => t.trace.hashCalls != s.trace.hashCalls) = true ∧
    (∃ t, exec (.discard true) s = .next t) ∧
    ∃ t, (Instr.push 0x01#8).isCommand = true ∧ exec (.push 0x01#8) s = .next t ∧
      (t.trace.hashCalls ≠ s.trace.hashCalls ∨ t.trace.cipherCalls ≠ s.trace.cipherCalls) :=
  ⟨by decide, by decide, by decide, ⟨_, rfl⟩, ⟨_, rfl, rfl, .inl (by decide)⟩⟩

theorem witness_InvariantsHoldAfterReset : cfgP3.valid = true ∧ Params.std.valid = true := by decide

theorem nearlyE_clear : nearlyE.clearBeyondCursor := by
  intro n hn
  have h7 : 7 ≤ n := hn
  by_cases h : n = 7
  · subst h; decide
  · have h1 : ¬ 0 = n / 8 := by omega
    simp [nearlyE, almost, Memory.bitPos, Memory.bit, Memory.read, h1, Memory.unlisted]

theorem nearlyE_poolPaired : nearlyE.poolPaired := by
  refine ⟨by decide, fun n => ?_⟩
  by_cases h : n < 4
  · have : n = 0 ∨ n = 1 ∨ n = 2 ∨ n = 3 := by omega
    rcases this with rfl | rfl | rfl | rfl <;> decide
  · have h1 : ¬ 0 = 2 * n / 8 := by omega
    have h2 : ¬ 0 = (2 * n + 1) / 8 := by omega
    simp [nearlyE, Memory.bitPos, Memory.bit, Memory.read, h1, h2, Memory.unlisted]

/-- A state that meets every premise of StepKeepsCursorsAndMemories, StepKeepsEbufClearBeyondItsCursor, StepKeepsThePoolPaired,
StepKeepsModesAndVerdicts, StepKeepsCarriedStateInRange and StepKeepsCountersAddingUp, and takes a step with a block cycle. -/
theorem witness_StepKeepsEveryInvariant :
    nearlyE.Inv ∧ nearlyE.clearBeyondCursor ∧ nearlyE.poolPaired ∧ nearlyE.modesExclusive ∧ nearlyE.verdictOk ∧
      nearlyE.carriedInRange ∧ nearlyE.countersAddUp ∧ (∃ t, step nearlyE = .next t) ∧
      nextIs (step nearlyE) (fun t => t.cntBlocks == 1#32) = true :=
  ⟨ready_nearlyE.inv, nearlyE_clear, nearlyE_poolPaired, ⟨by decide, fun _ _ => rfl, by decide⟩, ⟨by decide, by decide, by decide⟩,
    ⟨by decide, by decide⟩, ⟨fun _ => by decide, by decide⟩, ⟨_, rfl⟩, by decide⟩

/-- In whitening mode, the second passing block: K = 2 and K - 1 = 1 emitted. -/
theorem witness_StepKeepsCountersAddingUp :
    let s := { nearly with
      par := cfg 1 1, prevValid := true, cntBlocks := 1#32, pending := [.cmd 0x101#10] }
    s.countersAddUp ∧ (∃ t, step s = .next t) ∧
      nextIs (step s) (fun t => !t.cfgEncrypt && t.cntBlocks == 2#32 && t.cntFail == 0#32 && t.cntEmit == 1#32) = true :=
  ⟨⟨fun _ => by decide, by decide⟩, ⟨_, rfl⟩, by decide⟩

/-- In whitening mode, a step that emits a block. -/
theorem witness_StepKeepsOutputInWholeBlocks :
    let s := { nearly with par := cfg 1 1, prevValid := true, pending := [.cmd 0x101#10] }
    s.outputInBlocks ∧ s.cfgEncrypt = false ∧ (∃ t, step s = .next t) ∧ nextIs (step s) (fun t => t.trace.out.length == 1) = true :=
  ⟨fun _ _ => by decide, by decide, ⟨_, rfl⟩, by decide⟩

theorem witness_ReadyMachineNeverStops : nearlyE.Ready := ready_nearlyE

end Sys2Proof.Tests
end

section
/-! The scope of the model (00_scope.md): the parameters of this hardware, and what a step does with a pending command
word, said through one equation for each function between the step and the command. -/

namespace Sys2Proof

/-- B, L and DLEN are numerals; the open CLEN is a successor, so it is at least 1 (R8). -/
theorem Params.std_valid : Params.std.valid = true := by
  have hclen : 1 ≤ Params.std.CLEN := Nat.le_add_left 1 Config.clenPred
  simp only [Params.valid, Bool.and_eq_true, decide_eq_true_eq]
  exact ⟨⟨⟨by decide, by decide⟩, by decide⟩, hclen⟩

end Sys2Proof

namespace Sys2Proof.Machine

@[simp] theorem resetOf_par (p : Params) (encrypt policy : Bool) : (State.resetOf p encrypt policy).par = p := rfl

@[simp] theorem reset_par : State.reset.par = Params.std := resetOf_par _ _ _

/-- An instance that exists takes its next host input. -/
theorem step_of_valid {s : State} (hv : s.par.valid = true) : step s = takeInput s := if_pos hv

/-- The input taken is the first of those pending, and it is served with that input taken off. -/
theorem takeInput_cons {s : State} {i : HostInput} {rest : List HostInput} (hp : s.pending = i :: rest) :
    takeInput s = serve i { s with pending := rest } := by
  simp only [takeInput, hp]

@[simp] theorem serve_cmd (w : CmdWord) (s : State) : serve (.cmd w) s = command w s := rfl

/-- After the first reset (R244) a command word has a meaning, that of the operation it decodes to. -/
theorem command_of_resetDone {s : State} (w : CmdWord) (hr : s.resetDone = true) : command w s = exec (decode w) s :=
  if_pos hr

/-- Settles O2: the reset state holds the parameters of `Params.std`, whose values are those of R6 to R8 and R10. -/
theorem thisHardwareHasTheStatedParameters : Obligations.ThisHardwareHasTheStatedParameters := by
  unfold Obligations.ThisHardwareHasTheStatedParameters
  rw [reset_par]
  exact ⟨rfl, rfl, rfl, Params.std_valid, rfl⟩

/-- Settles O5, by following the word from the step through the port to the command it decodes to. -/
theorem stepRunsTheDecodedCommand : Obligations.StepRunsTheDecodedCommand := by
  intro s w rest hv hr hp
  calc step s
      = takeInput s := step_of_valid hv
    _ = serve (.cmd w) { s with pending := rest } := takeInput_cons hp
    _ = command w { s with pending := rest } := serve_cmd w _
    _ = exec (decode w) { s with pending := rest } := command_of_resetDone w hr

end Sys2Proof.Machine
end

section
/-! What every step keeps (10_state.md R22 to R29, R42 to R44), each invariant in three lemmas: it holds right after reset, the
writes of ACCEPT and DISCARD keep it, and the block cycle keeps it. -/

namespace Sys2Proof

theorem Params.valid_iff (p : Params) : p.valid = true ↔ 0 < p.B ∧ 0 < p.L ∧ 0 < p.DLEN ∧ 0 < p.CLEN := by
  simp [Params.valid, and_assoc, Nat.one_le_iff_ne_zero, Nat.pos_iff_ne_zero]

end Sys2Proof

namespace Sys2Proof.Machine

/-! ### Bits of an empty and of a cleared memory -/

theorem Memory.bitPos_of_read_zero {m : Memory} {n : Nat} (h : m.read (n / 8) = 0x00#8) : m.bitPos n = false := by
  simp [Memory.bitPos, Memory.bit, h]

@[simp] theorem Memory.bitPos_nil (n : Nat) : Memory.bitPos [] n = false := Memory.bitPos_of_read_zero rfl

/-- A memory of `n` bytes that is cleared reads 0 everywhere (42_output_encoder.md R170). -/
theorem Memory.read_cleared {m : Memory} {n : Nat} (hwf : m.wf = true) (hbelow : m.below n = true) (i : Nat) :
    (m.writeBlock (List.replicate n 0x00#8)).read i = 0x00#8 := by
  rw [Memory.read_writeBlock _ _ hwf, List.length_replicate]
  by_cases hi : i < n
  · simp [hi]
  · rw [if_neg hi]
    exact Memory.read_of_below hbelow (Nat.le_of_not_lt hi)

/-! ### Every invariant holds right after reset -/

/-- Settles O1: each element of the reset table is a field of the state after reset, and the three memories list nothing. -/
theorem resetStateIsTheResetTable : Obligations.ResetStateIsTheResetTable := fun _ _ _ =>
  ⟨_, rfl, Memory.read_nil, rfl, rfl, Memory.read_nil, rfl, rfl, rfl, Memory.read_nil,
    rfl, rfl, rfl, rfl, rfl, rfl, rfl, rfl, rfl, rfl, rfl, rfl, rfl, rfl⟩

section
variable (p : Params) (enc pol : Bool)

theorem inv_resetOf (hp : p.valid = true) : (State.resetOf p enc pol).Inv := by
  obtain ⟨hB, hL, -, -⟩ := (Params.valid_iff p).1 hp
  exact ⟨⟨hB, hL⟩, ⟨rfl, rfl⟩, ⟨rfl, rfl⟩, rfl, rfl⟩

theorem ready_resetOf (hp : p.valid = true) : (State.resetOf p enc pol).Ready := ⟨hp, rfl, inv_resetOf p enc pol hp⟩

theorem clearBeyondCursor_resetOf : (State.resetOf p enc pol).clearBeyondCursor := fun n _ => Memory.bitPos_nil n

theorem poolPaired_resetOf : (State.resetOf p enc pol).poolPaired :=
  ⟨rfl, fun n => (Memory.bitPos_nil (2 * n)).trans (Memory.bitPos_nil (2 * n + 1)).symm⟩

theorem modesExclusive_resetOf : (State.resetOf p enc pol).modesExclusive :=
  ⟨fun _ => rfl, fun _ => Memory.read_nil, fun _ => ⟨rfl, rfl, rfl⟩⟩

theorem verdictOk_resetOf : (State.resetOf p enc pol).verdictOk :=
  ⟨rfl, BitVec.and_self, fun _ => ⟨rfl, rfl, rfl, rfl⟩⟩

theorem carriedInRange_resetOf : (State.resetOf p enc pol).carriedInRange := ⟨Nat.zero_le _, Nat.zero_le _⟩

theorem countersAddUp_resetOf : (State.resetOf p enc pol).countersAddUp := by
  refine ⟨fun _ => ?_, fun _ h => absurd rfl h⟩
  simp [State.resetOf]

theorem outputInBlocks_resetOf : (State.resetOf p enc pol).outputInBlocks := fun _ _ => rfl

end

/-- Settles O52: the lemmas above, put together. -/
theorem invariantsHoldAfterReset : Obligations.InvariantsHoldAfterReset := fun p enc pol hp =>
  ⟨_, rfl, ready_resetOf p enc pol hp, clearBeyondCursor_resetOf p enc pol, poolPaired_resetOf p enc pol,
    modesExclusive_resetOf p enc pol, verdictOk_resetOf p enc pol, carriedInRange_resetOf p enc pol,
    countersAddUp_resetOf p enc pol, outputInBlocks_resetOf p enc pol⟩

/-! ### The cursors and the memories -/

/-- `prev` is left or takes the whole block (R163). -/
theorem blockCycle_prev (s : State) :
    (blockCycle s).prev = s.prev ∨ (blockCycle s).prev = s.prev.writeBlock (s.ebuf.block s.par.B) := by
  rcases blockCycle_cases s with ⟨-, h⟩ | ⟨-, -, -, h⟩ | ⟨-, -, -, h⟩ | ⟨-, -, -, h⟩ | ⟨-, -, -, -, h⟩ | ⟨-, -, -, -, h⟩
  all_goals simp [h]

theorem blockCycle_memoriesOk {s : State} (hs : s.memoriesOk) : (blockCycle s).memoriesOk := by
  obtain ⟨⟨hewf, hebelow⟩, hpool, hvwf, hvbelow⟩ := hs
  have hprev : (blockCycle s).prev.wf ∧ (blockCycle s).prev.below s.par.B := by
    rcases blockCycle_prev s with h | h <;> rw [h]
    · exact ⟨hvwf, hvbelow⟩
    · exact ⟨Memory.wf_writeBlock _ hvwf, Memory.below_writeBlock (by simp) hvbelow⟩
  refine ⟨?_, ?_, ?_⟩
  · simpa using ⟨Memory.wf_writeBlock _ hewf, Memory.below_writeBlock (by simp) hebelow⟩
  · simpa using hpool
  · simpa using hprev

theorem writeAccepted_memoriesOk (bit : Bool) {s : State} (hB : s.eByte < s.par.B) (hs : s.memoriesOk) :
    (writeAccepted bit s).memoriesOk := by
  obtain ⟨⟨hwf, hbelow⟩, hpool, hprev⟩ := hs
  rw [writeAccepted_eq]
  exact ⟨⟨Memory.wf_write _ _ hwf, Memory.below_write _ hB hbelow⟩, hpool, hprev⟩

theorem writeDiscarded_memoriesOk (bit : Bool) {s : State} (hL : s.pByte < s.par.L) (hs : s.memoriesOk) :
    (writeDiscarded bit s).memoriesOk := by
  obtain ⟨hebuf, ⟨hwf, hbelow⟩, hprev⟩ := hs
  rw [writeDiscarded_eq]
  exact ⟨hebuf, ⟨Memory.wf_write _ _ hwf, Memory.below_write _ hL hbelow⟩, hprev⟩

/-- The EntropyBuffer cursor stays in range: a bit short of the capacity leaves room, the last bit runs the block cycle, which
sets the cursor to 0 (R22, R23). -/
theorem accept_inv {bit : Bool} {s t : State} (hs : s.Inv) (h : accept bit s = .next t) : t.Inv := by
  obtain ⟨⟨-, hL⟩, hmem⟩ := hs
  obtain ⟨hB, ⟨hroom, rfl⟩ | ⟨-, rfl⟩⟩ := accept_cases h
  · have hmem' := writeAccepted_memoriesOk bit hB hmem
    rw [← writeAccepted_ecur bit s] at hroom
    have hB' := (cursorBits_lt_iff _ _ _).1 hroom
    exact ⟨⟨by simpa using hB', by simpa using hL⟩, hmem'⟩
  · have hmem' := blockCycle_memoriesOk (writeAccepted_memoriesOk bit hB hmem)
    exact ⟨⟨by simpa using Nat.zero_lt_of_lt hB, by simpa using hL⟩, hmem'⟩

/-- The pool cursor stays in range: it goes on modulo the ring (R25). -/
theorem discard_inv {bit : Bool} {s t : State} (hs : s.Inv) (h : discard bit s = .next t) : t.Inv := by
  obtain ⟨⟨hB, -⟩, hmem⟩ := hs
  obtain ⟨hL, rfl⟩ := discard_cases h
  have hpcur : (writeDiscarded bit s).pcur < 8 * s.par.L := by
    rw [writeDiscarded_pcur bit hL]
    exact Nat.mod_lt _ (by omega)
  have hL' := (cursorBits_lt_iff _ _ _).1 hpcur
  exact ⟨⟨by simpa using hB, by simpa using hL'⟩, writeDiscarded_memoriesOk bit hL hmem⟩

/-- A property that holds right after reset, does not look at what the model keeps for itself, and is kept by a response, by
BadCommand, by ACCEPT and by DISCARD, is kept by every step. -/
theorem step_keeps_bits (P : State → Prop)
    (hown : ∀ s past pending draws, P s → P { s with past := past, pending := pending, draws := draws })
    (hrst : ∀ p enc pol, p.valid = true → P (State.resetOf p enc pol))
    (hrsp : ∀ d e s, P s → P (respond d e s))
    (hbad : ∀ s, P s → P (raise .badCommand s))
    (hacc : ∀ bit s t, P s → accept bit s = .next t → P t)
    (hdis : ∀ bit s t, P s → discard bit s = .next t → P t)
    {s t : State} (hs : P s) (h : step s = .next t) : P t :=
  step_keeps P (fun s rest => hown s s.past rest s.draws) (fun _ _ _ hv => hown _ _ _ _ (hrst _ _ _ hv)) hrsp hbad
    (fun _ _ _ _ hs h => push_keeps_bits P hacc hdis hrsp hs h) hs h

/-- Settles O53: ACCEPT and DISCARD keep the invariant, and nothing else writes a cursor or a memory. -/
theorem stepKeepsCursorsAndMemories : Obligations.StepKeepsCursorsAndMemories := fun _ _ hs h =>
  step_keeps_bits State.Inv
    (fun _ _ _ _ hs => ⟨hs.cursors, hs.memories⟩) inv_resetOf (fun _ _ _ hs => ⟨hs.cursors, hs.memories⟩)
    (fun _ hs => ⟨hs.cursors, hs.memories⟩) (fun _ _ _ => accept_inv) (fun _ _ _ => discard_inv) hs h

/-! ### `ebuf` at and beyond its cursor -/

/-- The block cycle leaves no bit in `ebuf` (R170). -/
theorem blockCycle_clearBeyondCursor {s : State} (hs : s.memoriesOk) : (blockCycle s).clearBeyondCursor := by
  obtain ⟨⟨hwf, hbelow⟩, -, -⟩ := hs
  intro n _
  rw [blockCycle_ebuf]
  exact Memory.bitPos_of_read_zero (Memory.read_cleared hwf hbelow _)

/-- ACCEPT writes at the cursor and the cursor passes the bit written (R103). -/
theorem writeAccepted_clearBeyondCursor (bit : Bool) {s : State} (hs : s.memoriesOk) (hclear : s.clearBeyondCursor) :
    (writeAccepted bit s).clearBeyondCursor := by
  obtain ⟨⟨hwf, -⟩, -, -⟩ := hs
  intro n hn
  rw [writeAccepted_ecur] at hn
  rw [writeAccepted_bitPos bit s n hwf, if_neg (by omega)]
  exact hclear n (by omega)

theorem accept_clearBeyondCursor {bit : Bool} {s t : State} (hs : s.memoriesOk) (hclear : s.clearBeyondCursor)
    (h : accept bit s = .next t) : t.clearBeyondCursor := by
  obtain ⟨hB, ⟨-, rfl⟩ | ⟨-, rfl⟩⟩ := accept_cases h
  · exact writeAccepted_clearBeyondCursor bit hs hclear
  · exact blockCycle_clearBeyondCursor (writeAccepted_memoriesOk bit hB hs)

theorem discard_clearBeyondCursor {bit : Bool} {s t : State} (hclear : s.clearBeyondCursor)
    (h : discard bit s = .next t) : t.clearBeyondCursor := by
  obtain ⟨-, rfl⟩ := discard_cases h
  rw [writeDiscarded_eq]
  exact hclear

/-- Settles O54, together with the invariant of O53: clearing `ebuf` empties it because nothing lies outside its B bytes. -/
theorem stepKeepsEbufClearBeyondItsCursor : Obligations.StepKeepsEbufClearBeyondItsCursor := fun _ _ hs hclear h =>
  (step_keeps_bits (fun s => s.Inv ∧ s.clearBeyondCursor)
    (fun _ _ _ _ ⟨hs, hclear⟩ => ⟨⟨hs.cursors, hs.memories⟩, hclear⟩)
    (fun p enc pol hp => ⟨inv_resetOf p enc pol hp, clearBeyondCursor_resetOf p enc pol⟩)
    (fun _ _ _ ⟨hs, hclear⟩ => ⟨⟨hs.cursors, hs.memories⟩, hclear⟩)
    (fun _ ⟨hs, hclear⟩ => ⟨⟨hs.cursors, hs.memories⟩, hclear⟩)
    (fun _ _ _ ⟨hs, hclear⟩ h => ⟨accept_inv hs h, accept_clearBeyondCursor hs.memories hclear h⟩)
    (fun _ _ _ ⟨hs, hclear⟩ h => ⟨discard_inv hs h, discard_clearBeyondCursor hclear h⟩) ⟨hs, hclear⟩ h).2

/-! ### Invariants that only the block cycle can touch -/

/-- `s` with the two buffers, their cursors, `primed`, `err_cmd`, the responses, the event log and the model's own fields of
`u`: all that a step other than a reset may write outside the block cycle (40_extractor.md R103, R104; 43_command_status.md R190
to R192). -/
def State.overlay (s u : State) : State :=
  { s with
    ebuf := u.ebuf, eByte := u.eByte, eBit := u.eBit, pool := u.pool, pByte := u.pByte, pBit := u.pBit, primed := u.primed,
    errCmd := u.errCmd, past := u.past, pending := u.pending, draws := u.draws,
    trace := { s.trace with rsps := u.trace.rsps, events := u.trace.events } }

theorem overlay_respond (d : Word) (e : Bool) (s : State) : s.overlay (respond d e s) = respond d e s := rfl

theorem overlay_badCommand (s : State) : s.overlay (raise .badCommand s) = raise .badCommand s := rfl

theorem overlay_writeAccepted (bit : Bool) (s : State) : s.overlay (writeAccepted bit s) = writeAccepted bit s := by
  rw [writeAccepted_eq]; rfl

theorem overlay_writeDiscarded (bit : Bool) (s : State) : s.overlay (writeDiscarded bit s) = writeDiscarded bit s := by
  rw [writeDiscarded_eq]; rfl

/-- A property that holds right after reset, does not look at what is written outside the block cycle, and is kept by the block
cycle, is kept by every step. -/
theorem step_keeps_of_blockCycle (P : State → Prop) (hover : ∀ s u, P s → P (s.overlay u))
    (hrst : ∀ p enc pol, P (State.resetOf p enc pol)) (hcycle : ∀ s, P s → P (blockCycle s))
    {s t : State} (hs : P s) (h : step s = .next t) : P t := by
  have haccepted : ∀ bit s, P s → P (writeAccepted bit s) := fun bit s hs => overlay_writeAccepted bit s ▸ hover s _ hs
  refine step_keeps_bits P
    (fun s past pending draws => hover s { s with past := past, pending := pending, draws := draws })
    (fun p enc pol _ => hrst p enc pol) (fun d e s hs => overlay_respond d e s ▸ hover s _ hs)
    (fun s hs => overlay_badCommand s ▸ hover s _ hs) ?_ ?_ hs h
  · intro bit s t hs h
    obtain ⟨-, ⟨-, rfl⟩ | ⟨-, rfl⟩⟩ := accept_cases h
    · exact haccepted bit s hs
    · exact hcycle _ (haccepted bit s hs)
  · intro bit s t hs h
    obtain ⟨-, rfl⟩ := discard_cases h
    exact overlay_writeDiscarded bit s ▸ hover s _ hs

/-! ### The modes and the verdict registers -/

@[simp] theorem blockCycle_lastMask (s : State) : (blockCycle s).lastMask = fipsMask (s.ebuf.block s.par.B) s := by
  rcases blockCycle_cases s with ⟨-, h⟩ | ⟨-, -, -, h⟩ | ⟨-, -, -, h⟩ | ⟨-, -, -, h⟩ | ⟨-, -, -, -, h⟩ | ⟨-, -, -, -, h⟩
  all_goals simp [h]

@[simp] theorem blockCycle_accMask (s : State) :
    (blockCycle s).accMask = s.accMask ||| fipsMask (s.ebuf.block s.par.B) s := by
  rcases blockCycle_cases s with ⟨-, h⟩ | ⟨-, -, -, h⟩ | ⟨-, -, -, h⟩ | ⟨-, -, -, h⟩ | ⟨-, -, -, -, h⟩ | ⟨-, -, -, -, h⟩
  all_goals simp [h]

/-- An OR takes no bit out of a mask (10_state.md R43). -/
theorem mask_and_or_self (m n : Mask) : m &&& (m ||| n) = m := by
  ext i
  simp +contextual

/-- WHITEN runs in whitening mode only and seeds `prev`; the cores and KeyNotReady are reached in encrypted mode only. -/
theorem blockCycle_modesExclusive {s : State} (hs : s.modesExclusive) : (blockCycle s).modesExclusive := by
  obtain ⟨henc, hprev, hwhite⟩ := hs
  rcases blockCycle_cases s with
    ⟨-, h⟩ | ⟨-, hm, -, h⟩ | ⟨-, hm, hv, h⟩ | ⟨-, hm, -, h⟩ | ⟨-, hm, -, -, h⟩ | ⟨-, hm, -, -, h⟩
  · rw [h]
    exact ⟨henc, hprev, hwhite⟩
  · rw [h]
    exact ⟨fun hc => absurd (hm.symm.trans hc) Bool.false_ne_true, fun hn => absurd hn.symm Bool.false_ne_true, hwhite⟩
  · rw [h]
    exact ⟨fun hc => absurd (hm.symm.trans hc) Bool.false_ne_true,
      fun hn => absurd (hn.symm.trans hv) Bool.false_ne_true, hwhite⟩
  all_goals
    rw [h]
    exact ⟨henc, hprev, fun hw => absurd (hw.symm.trans hm) Bool.false_ne_true⟩

/-- The block cycle sets both validity marks, and `acc_mask` takes in the new mask (R42, R43). -/
theorem blockCycle_verdictOk (s : State) : (blockCycle s).verdictOk := by
  refine ⟨by simp, ?_, by simp⟩
  rw [blockCycle_lastMask, blockCycle_accMask, BitVec.or_comm]
  exact mask_and_or_self _ _

/-- Settles O56: outside the block cycle nothing writes the modes' state or the verdict registers. -/
theorem stepKeepsModesAndVerdicts : Obligations.StepKeepsModesAndVerdicts := fun _ _ hm hv h =>
  ⟨step_keeps_of_blockCycle State.modesExclusive (fun _ _ hs => hs) modesExclusive_resetOf
      (fun _ => blockCycle_modesExclusive) hm h,
    step_keeps_of_blockCycle State.verdictOk (fun _ _ hs => hs) verdictOk_resetOf
      (fun s _ => blockCycle_verdictOk s) hv h⟩

/-! ### The carried lengths and positions -/

/-- Every run lies inside the sequence it is a run of. -/
theorem runsFrom_inside (start : Nat) (s : List Bool) (r : Run) (hr : r ∈ runsFrom start s) :
    start ≤ r.start ∧ r.start + r.len ≤ start + s.length := by
  induction s generalizing start r with
  | nil => simp [runsFrom] at hr
  | cons b s ih =>
    specialize ih (start + 1)
    rw [List.length_cons]
    unfold runsFrom at hr
    split at hr
    · obtain rfl := List.mem_singleton.1 hr
      exact ⟨le_rfl, by simp⟩
    · next q qs hq =>
      rw [hq] at ih
      have hhead := ih q List.mem_cons_self
      have htail : ∀ r ∈ q :: qs, start ≤ r.start ∧ r.start + r.len ≤ start + (s.length + 1) := fun r hr => by
        have := ih r hr
        omega
      split at hr
      · rcases List.mem_cons.1 hr with rfl | hr
        · exact ⟨le_rfl, by dsimp only; omega⟩
        · exact htail r (List.mem_cons_of_mem q hr)
      · rcases List.mem_cons.1 hr with rfl | hr
        · exact ⟨le_rfl, by dsimp only; omega⟩
        · exact htail r hr

/-- No run is longer than the bound, so the longest of a value is not either. -/
theorem extLen_le {rs : List Run} {n : Nat} (h : ∀ r ∈ rs, r.len ≤ n) (v : Bool) : extLen rs v ≤ n := by
  induction rs with
  | nil => exact Nat.zero_le n
  | cons r rs ih =>
    have htail := ih fun q hq => h q (List.mem_cons_of_mem r hq)
    have hhead := h r List.mem_cons_self
    simp only [extLen, List.foldr_cons] at htail ⊢
    split
    · exact Nat.max_le.2 ⟨hhead, htail⟩
    · exact htail

/-- The extreme run of a value lies inside the sequence (41_fips_validator.md R137). -/
theorem extLen_add_extPos_le {rs : List Run} {n : Nat} (h : ∀ r ∈ rs, r.start + r.len ≤ n) (v : Bool) :
    extLen rs v + extPos rs v ≤ n := by
  simp only [extPos]
  split
  · next r hr =>
    have hlen : r.len = extLen rs v := by
      have hlongest := List.find?_some hr
      rw [Bool.and_eq_true, beq_iff_eq, beq_iff_eq] at hlongest
      exact hlongest.2
    have := h r (List.mem_of_find?_eq_some hr)
    omega
  · exact extLen_le (fun r hr => Nat.le_trans (Nat.le_add_left _ _) (h r hr)) v

@[simp] theorem flat_length (blk : Block) : (flat blk).length = 8 * blk.length := by
  simp [flat, Nat.mul_comm]

/-- The extremes that the block cycle carries over are those of a block of B bytes (R138). -/
theorem blockCycle_carriedInRange (s : State) : (blockCycle s).carriedInRange := by
  have hruns : ∀ r ∈ runsOf (flat (s.ebuf.block s.par.B)), r.start + r.len ≤ 8 * s.par.B := fun r hr => by
    simpa using (runsFrom_inside 0 _ r hr).2
  rw [State.carriedInRange, blockCycle_fcLen, blockCycle_fcPos, blockCycle_par]
  exact ⟨extLen_add_extPos_le hruns false, extLen_add_extPos_le hruns true⟩

/-- Settles O57: only the block cycle carries extremes over, and those of its block are in range. -/
theorem stepKeepsCarriedStateInRange : Obligations.StepKeepsCarriedStateInRange := fun _ _ hs h =>
  step_keeps_of_blockCycle State.carriedInRange (fun _ _ hs => hs) carriedInRange_resetOf
    (fun s _ => blockCycle_carriedInRange s) hs h

/-! ### The counters -/

/-- A counter that has not reached its end counts (00_scope.md R15). -/
theorem satInc_toNat_of_lt {c : Word} (h : c.toNat < 2 ^ 32 - 1) : (satInc c).toNat = c.toNat + 1 := by
  rw [satInc_toNat, if_neg (Nat.ne_of_lt h)]

theorem le_satInc (c : Word) : c.toNat ≤ (satInc c).toNat := by
  rw [satInc_toNat]; split <;> omega

/-- The block cycles that the counters account for: those that failed, those that emitted, and those that passed and emitted
nothing, which seeded `prev` or were dropped (42_output_encoder.md R160 to R167). -/
def State.accounted (s : State) : Nat :=
  s.cntFail.toNat + s.cntEmit.toNat
    + (if s.cfgEncrypt then (if s.cfgPolicy then 0 else s.cntUnprimed.toNat) else s.prevValid.toNat)

/-- However it ends, a block cycle is accounted for once. -/
theorem blockCycle_accounted {s : State} (hlt : s.accounted < 2 ^ 32 - 1) : (blockCycle s).accounted = s.accounted + 1 := by
  unfold State.accounted at hlt ⊢
  rcases blockCycle_cases s with
    ⟨-, h⟩ | ⟨-, hm, hv, h⟩ | ⟨-, hm, hv, h⟩ | ⟨-, hm, -, h⟩ | ⟨-, hm, -, hq, h⟩ | ⟨-, hm, -, hq, h⟩
  · have hfail := satInc_toNat_of_lt (c := s.cntFail) (by omega)
    simp [h, hfail]
    omega
  · simp [h, hm, hv]
  · have hemit := satInc_toNat_of_lt (c := s.cntEmit) (by omega)
    simp [h, hm, hv, hemit]
    omega
  · have hemit := satInc_toNat_of_lt (c := s.cntEmit) (by omega)
    simp [h, hm, hemit]
    omega
  · simp only [hm, hq, if_true, Bool.false_eq_true, if_false] at hlt
    have hdrop := satInc_toNat_of_lt (c := s.cntUnprimed) (by omega)
    simp [h, hm, hq, hdrop]
    omega
  · have hemit := satInc_toNat_of_lt (c := s.cntEmit) (by omega)
    simp [h, hm, hq, hemit]
    omega

/-- In whitening mode `prev` is seeded before anything is emitted (R164). -/
theorem blockCycle_seeds_before_emitting {s : State} (hwhite : s.cfgEncrypt = false)
    (hs : s.cntEmit ≠ 0#32 → s.prevValid = true) (hemit : (blockCycle s).cntEmit ≠ 0#32) :
    (blockCycle s).prevValid = true := by
  rcases blockCycle_cases s with
    ⟨-, h⟩ | ⟨-, -, -, h⟩ | ⟨-, -, hv, h⟩ | ⟨-, hm, -, h⟩ | ⟨-, hm, -, -, h⟩ | ⟨-, hm, -, -, h⟩
  · rw [h] at hemit ⊢
    exact hs hemit
  · rw [h]
  · rw [h]
    exact hv
  all_goals exact absurd (hwhite.symm.trans hm) Bool.false_ne_true

theorem blockCycle_countersAddUp {s : State} (hs : s.countersAddUp) : (blockCycle s).countersAddUp := by
  obtain ⟨hsum, hseed⟩ := hs
  refine ⟨fun hlt => ?_, fun hwhite => ?_⟩
  · rw [blockCycle_cntBlocks] at hlt ⊢
    have hblocks : s.cntBlocks.toNat < 2 ^ 32 - 1 := Nat.lt_of_le_of_lt (le_satInc _) hlt
    have hacc : s.cntBlocks.toNat = s.accounted := hsum hblocks
    calc (satInc s.cntBlocks).toNat
        = s.cntBlocks.toNat + 1 := satInc_toNat_of_lt hblocks
      _ = s.accounted + 1 := by rw [hacc]
      _ = (blockCycle s).accounted := (blockCycle_accounted (hacc ▸ hblocks)).symm
  · rw [blockCycle_cfgEncrypt] at hwhite
    exact blockCycle_seeds_before_emitting hwhite (hseed hwhite)

/-- Of the blocks that passed in whitening mode exactly the first was not emitted: it seeded `prev` (R163, R164). -/
theorem cntEmit_succ_of_passed {s : State} (hs : s.countersAddUp) (hwhite : s.cfgEncrypt = false)
    (hlt : s.cntBlocks.toNat < 2 ^ 32 - 1) (hpass : s.cntFail.toNat < s.cntBlocks.toNat) :
    s.cntEmit.toNat + 1 = s.cntBlocks.toNat - s.cntFail.toNat := by
  obtain ⟨hsum, hseed⟩ := hs
  specialize hsum hlt
  simp only [hwhite, Bool.false_eq_true, if_false] at hsum
  cases hv : s.prevValid with
  | true =>
    simp only [hv, Bool.toNat_true] at hsum
    omega
  | false =>
    have hnone : s.cntEmit = 0#32 := by
      by_contra hemit
      exact absurd (hv.symm.trans (hseed hwhite hemit)) Bool.false_ne_true
    simp only [hv, hnone, Bool.toNat_false, BitVec.toNat_zero] at hsum
    omega

/-- Settles O58: the block cycle keeps the sum, and K - 1 follows from it for every state in which it holds. -/
theorem stepKeepsCountersAddingUp : Obligations.StepKeepsCountersAddingUp := fun _ _ hs h =>
  have ht := step_keeps_of_blockCycle State.countersAddUp (fun _ _ hs => hs) countersAddUp_resetOf
    (fun _ => blockCycle_countersAddUp) hs h
  ⟨ht, cntEmit_succ_of_passed ht⟩

/-! ### What no command undoes -/

/-- `t` keeps what is sticky in `s`: no mark is cleared, no bit leaves `acc_mask`, no counter is lower, and the mode, the policy
and the parameters are the same. -/
structure State.Sticky (s t : State) : Prop where
  primed : s.primed = true → t.primed = true
  prevValid : s.prevValid = true → t.prevValid = true
  fcValid : s.fcValid = true → t.fcValid = true
  lastValid : s.lastValid = true → t.lastValid = true
  errCmd : s.errCmd = true → t.errCmd = true
  accMask : s.accMask &&& t.accMask = s.accMask
  cntBlocks : s.cntBlocks.toNat ≤ t.cntBlocks.toNat
  cntFail : s.cntFail.toNat ≤ t.cntFail.toNat
  cntEmit : s.cntEmit.toNat ≤ t.cntEmit.toNat
  cntUnprimed : s.cntUnprimed.toNat ≤ t.cntUnprimed.toNat
  cfgEncrypt : t.cfgEncrypt = s.cfgEncrypt
  cfgPolicy : t.cfgPolicy = s.cfgPolicy
  par : t.par = s.par

theorem State.Sticky.refl (s : State) : s.Sticky s :=
  ⟨id, id, id, id, id, BitVec.and_self, le_rfl, le_rfl, le_rfl, le_rfl, rfl, rfl, rfl⟩

theorem State.Sticky.trans {s t u : State} (hst : s.Sticky t) (htu : t.Sticky u) : s.Sticky u where
  primed := htu.primed ∘ hst.primed
  prevValid := htu.prevValid ∘ hst.prevValid
  fcValid := htu.fcValid ∘ hst.fcValid
  lastValid := htu.lastValid ∘ hst.lastValid
  errCmd := htu.errCmd ∘ hst.errCmd
  accMask := by rw [← hst.accMask, BitVec.and_assoc, htu.accMask]
  cntBlocks := hst.cntBlocks.trans htu.cntBlocks
  cntFail := hst.cntFail.trans htu.cntFail
  cntEmit := hst.cntEmit.trans htu.cntEmit
  cntUnprimed := hst.cntUnprimed.trans htu.cntUnprimed
  cfgEncrypt := htu.cfgEncrypt.trans hst.cfgEncrypt
  cfgPolicy := htu.cfgPolicy.trans hst.cfgPolicy
  par := htu.par.trans hst.par

theorem sticky_respond (d : Word) (e : Bool) (s : State) : s.Sticky (respond d e s) := { State.Sticky.refl s with }

theorem sticky_badCommand (s : State) : s.Sticky (raise .badCommand s) := { State.Sticky.refl s with errCmd := fun _ => rfl }

theorem sticky_writeAccepted (bit : Bool) (s : State) : s.Sticky (writeAccepted bit s) := by
  rw [writeAccepted_eq]
  exact { State.Sticky.refl s with }

theorem sticky_writeDiscarded (bit : Bool) {s : State} (hL : s.pByte < s.par.L) : s.Sticky (writeDiscarded bit s) := by
  have hprimed : s.primed = true → (writeDiscarded bit s).primed = true := fun h => by
    simp [writeDiscarded_primed bit hL, h]
  rw [writeDiscarded_eq] at hprimed ⊢
  exact { State.Sticky.refl s with primed := hprimed }

theorem sticky_blockCycle (s : State) : s.Sticky (blockCycle s) := by
  have hwrites : (s.prevValid = true → (blockCycle s).prevValid = true) ∧ s.cntFail.toNat ≤ (blockCycle s).cntFail.toNat ∧
      s.cntEmit.toNat ≤ (blockCycle s).cntEmit.toNat ∧ s.cntUnprimed.toNat ≤ (blockCycle s).cntUnprimed.toNat := by
    rcases blockCycle_cases s with
      ⟨-, h⟩ | ⟨-, -, -, h⟩ | ⟨-, -, -, h⟩ | ⟨-, -, -, h⟩ | ⟨-, -, -, -, h⟩ | ⟨-, -, -, -, h⟩
    all_goals simp [h, le_satInc]
  obtain ⟨hprev, hfail, hemit, hunprimed⟩ := hwrites
  have hacc : s.accMask &&& (blockCycle s).accMask = s.accMask := by
    rw [blockCycle_accMask]
    exact mask_and_or_self _ _
  exact ⟨by simp, hprev, by simp, by simp, by simp, hacc, by simp [le_satInc], hfail, hemit, hunprimed,
    by simp, by simp, by simp⟩

theorem sticky_accept {bit : Bool} {s t : State} (h : accept bit s = .next t) : s.Sticky t := by
  obtain ⟨-, ⟨-, rfl⟩ | ⟨-, rfl⟩⟩ := accept_cases h
  · exact sticky_writeAccepted bit s
  · exact (sticky_writeAccepted bit s).trans (sticky_blockCycle _)

theorem sticky_discard {bit : Bool} {s t : State} (h : discard bit s = .next t) : s.Sticky t := by
  obtain ⟨hL, rfl⟩ := discard_cases h
  exact sticky_writeDiscarded bit hL

theorem sticky_push {b : Byte} {s t : State} (h : execPush b s = .next t) : s.Sticky t :=
  push_keeps_bits s.Sticky (fun _ _ _ hs h => hs.trans (sticky_accept h)) (fun _ _ _ hs h => hs.trans (sticky_discard h))
    (fun _ _ _ hs => hs.trans (sticky_respond _ _ _)) (State.Sticky.refl s) h

theorem sticky_command {i : Instr} {s t : State} (hi : i.isCommand = true) (h : exec i s = .next t) : s.Sticky t := by
  cases i with
  | nop arg =>
    obtain rfl : respond 0#32 false s = t := Host.Outcome.next.inj h
    exact sticky_respond _ _ s
  | push b => exact sticky_push h
  | rd a =>
    obtain rfl : respond (reg a s) false s = t := Host.Outcome.next.inj h
    exact sticky_respond _ _ s
  | reserved arg =>
    obtain rfl : respond 0#32 true (raise .badCommand s) = t := Host.Outcome.next.inj h
    exact (sticky_badCommand s).trans (sticky_respond _ _ _)
  | _ => exact absurd hi Bool.false_ne_true

/-- Settles O49, clause by clause. -/
theorem onlyResetClearsStickyState : Obligations.OnlyResetClearsStickyState := fun _ _ _ hi h =>
  have hst := sticky_command hi h
  ⟨hst.primed, hst.prevValid, hst.fcValid, hst.lastValid, hst.errCmd, hst.accMask, hst.cntBlocks, hst.cntFail, hst.cntEmit,
    hst.cntUnprimed, hst.cfgEncrypt, hst.cfgPolicy, hst.par⟩

/-! ### The pool after a list of discarded bits -/

/-- What a pool of `L` bytes is when the bits `bs` have been discarded since reset: the cursor and `primed` by the number of
bits (10_state.md R25, R26), the latest 8*L bits where the ring puts them (R24). -/
structure State.Pooled (L : Nat) (bs : List Bool) (s : State) : Prop where
  length : s.par.L = L
  wf : s.pool.wf = true
  pcur : s.pcur = bs.length % (8 * L)
  primed : s.primed = decide (8 * L ≤ bs.length)
  latest : ∀ n, n < bs.length → bs.length ≤ n + 8 * L → s.pool.bitPos (n % (8 * L)) = bs.getD n false

theorem pooled_resetOf (p : Params) (enc pol : Bool) (hL : 0 < p.L) : (State.resetOf p enc pol).Pooled p.L [] where
  length := rfl
  wf := rfl
  pcur := (Nat.zero_mod _).symm
  primed := (decide_eq_false (by simp only [List.length_nil]; omega)).symm
  latest := fun n hn _ => absurd hn (Nat.not_lt_zero n)

/-- Two positions less than a ring apart lie at different places of the ring. -/
theorem mod_ne_mod_of_lt {m n k : Nat} (hmn : m < n) (hk : n < m + k) : m % k ≠ n % k := by
  intro h
  have hdiff := Nat.sub_mod_eq_zero_of_mod_eq h.symm
  rw [Nat.mod_eq_of_lt (by omega)] at hdiff
  omega

/-- One more discarded bit (40_extractor.md R104). -/
theorem writeDiscarded_pooled (bit : Bool) {L : Nat} {bs : List Bool} {s : State} (hL : s.pByte < s.par.L)
    (hs : s.Pooled L bs) : (writeDiscarded bit s).Pooled L (bs ++ [bit]) := by
  obtain ⟨rfl, hwf, hpcur, hprimed, hlatest⟩ := hs
  refine ⟨by simp, ?_, ?_, ?_, fun n hn hring => ?_⟩
  · rw [writeDiscarded_eq]
    exact Memory.wf_write _ _ hwf
  · rw [writeDiscarded_pcur bit hL, hpcur, Nat.mod_add_mod, List.length_append, List.length_singleton]
  · rw [writeDiscarded_primed bit hL, hprimed, hpcur, ← Bool.decide_or, List.length_append, List.length_singleton,
      decide_eq_decide]
    by_cases hfill : bs.length < 8 * s.par.L
    · rw [Nat.mod_eq_of_lt hfill]
      omega
    · omega
  · rw [List.length_append, List.length_singleton] at hn hring
    rw [writeDiscarded_bitPos bit s _ hwf, hpcur]
    by_cases hlast : n = bs.length
    · subst hlast
      simp
    · have hold : n < bs.length := by omega
      rw [if_neg (mod_ne_mod_of_lt hold (by omega)), hlatest n hold (by omega), List.getD_append _ _ _ _ hold]

@[simp] theorem exec_discard (bit : Bool) (s : State) : exec (.discard bit) s = discard bit s := rfl

theorem discardAll_pooled {L : Nat} (hL : 0 < L) (bs : List Bool) {as : List Bool} {s : State} (hs : s.Pooled L as) :
    ∃ t, discardAll bs s = .next t ∧ t.Pooled L (as ++ bs) := by
  induction bs generalizing as s with
  | nil => exact ⟨s, rfl, by rwa [List.append_nil]⟩
  | cons b bs ih =>
    have hlt : s.pByte < s.par.L := by
      refine (cursorBits_lt_iff s.pByte s.pBit s.par.L).1 ?_
      rw [← State.pcur, hs.pcur, hs.length]
      exact Nat.mod_lt _ (by omega)
    obtain ⟨t, ht, hpool⟩ := ih (writeDiscarded_pooled b hlt hs)
    refine ⟨t, ?_, ?_⟩
    · simp only [discardAll, exec_discard, discard_next b hlt, andThen_next, ht]
    · simpa using hpool

theorem discardAll_resetOf {p : Params} (hp : p.valid = true) (enc pol : Bool) (bs : List Bool) :
    ∃ t, discardAll bs (State.resetOf p enc pol) = .next t ∧ t.Pooled p.L bs := by
  obtain ⟨-, hL, -, -⟩ := (Params.valid_iff p).1 hp
  exact discardAll_pooled hL bs (pooled_resetOf p enc pol hL)

/-- Settles O26, with the state that `discardAll_resetOf` describes. -/
theorem poolIsPrimedByTheLastBitOfAFill : Obligations.PoolIsPrimedByTheLastBitOfAFill := fun _ enc pol bs hp =>
  let ⟨t, ht, hpool⟩ := discardAll_resetOf hp enc pol bs
  ⟨t, ht, hpool.primed, hpool.pcur⟩

/-- Settles O27, with the same state as O26. -/
theorem poolHoldsTheLatestDiscardedBits : Obligations.PoolHoldsTheLatestDiscardedBits := fun _ enc pol bs hp =>
  let ⟨t, ht, hpool⟩ := discardAll_resetOf hp enc pol bs
  ⟨t, ht, hpool.latest⟩

end Sys2Proof.Machine
end

section
/-! The command words (30_encoding.md R80 to R88): the two fields of a word, the decoder as one equation for each opcode, the
assembler's lines, and the one response of a command. -/

namespace Sys2Proof

/-! ### The fields of a command word (R80) -/

@[simp] theorem opField_commandWord (op : BitVec 2) (arg : Byte) : opField (commandWord op arg) = op :=
  BitVec.extractLsb'_append_eq_left

@[simp] theorem argField_commandWord (op : BitVec 2) (arg : Byte) : argField (commandWord op arg) = arg :=
  BitVec.extractLsb'_append_eq_right

/-- A command word is its two fields. -/
@[simp] theorem commandWord_fields (w : CmdWord) : commandWord (opField w) (argField w) = w :=
  (BitVec.extractLsb'_append_extractLsb'_eq_extractLsb' rfl).trans BitVec.extractLsb'_eq_self

theorem opField_cases (w : CmdWord) : opField w = 0b00#2 ∨ opField w = 0b01#2 ∨ opField w = 0b10#2 ∨ opField w = 0b11#2 := by
  generalize opField w = op
  revert op
  decide

/-- The rows' mask keeps the opcode alone, so the rows of R82 are told apart by the opcode. -/
theorem masked_eq_iff (w : CmdWord) (op : BitVec 2) : w &&& 0x300#10 = commandWord op 0x00#8 ↔ opField w = op := by
  have hmasked : w &&& 0x300#10 = commandWord (opField w) 0x00#8 := by
    conv_lhs => rw [← commandWord_fields w]
    exact Laws.commandWord_masked _ _
  rw [hmasked]
  exact ⟨fun h => by simpa using congrArg opField h, fun h => congrArg (commandWord · 0x00#8) h⟩

/-- The assembler's `opcode bits | operand` (R86) puts the two fields together. -/
theorem commandWord_or (op : BitVec 2) (arg : Byte) : commandWord op 0x00#8 ||| arg.setWidth 10 = commandWord op arg := by
  have harg : arg.setWidth 10 = 0#2 ++ arg := BitVec.setWidth_eq_append (by decide)
  rw [commandWord, commandWord, harg, BitVec.or_append, BitVec.or_zero, BitVec.zero_or]

/-! ### The decoder, one equation for each opcode (R82) -/

section
variable {w : CmdWord}

theorem decode_nop (h : opField w = 0b00#2) : decode w = .nop (argField w) := by simp [decode, h]

theorem decode_push (h : opField w = 0b01#2) : decode w = .push (argField w) := by simp [decode, h]

theorem decode_rd (h : opField w = 0b10#2) : decode w = .rd (argField w) := by simp [decode, h]

theorem decode_reserved (h : opField w = 0b11#2) : decode w = .reserved (argField w) := by simp [decode, h]

end

/-! ### Decoding and encoding -/

/-- An operation with an encoding is a command, whose opcode and operand the decoder finds again (R83, R84). -/
theorem decode_of_encode {i : Instr} {w : CmdWord} (h : encode i = some w) : decode w = i := by
  cases i with
  | nop arg => obtain rfl := Option.some.inj h; simp [decode_nop]
  | push b => obtain rfl := Option.some.inj h; simp [decode_push]
  | rd a => obtain rfl := Option.some.inj h; simp [decode_rd]
  | reserved arg => obtain rfl := Option.some.inj h; simp [decode_reserved]
  | _ => cases h

theorem encode_decode (w : CmdWord) : encode (decode w) = some w := by
  have hfields := commandWord_fields w
  rcases opField_cases w with h | h | h | h <;> rw [h] at hfields
  · rw [decode_nop h, encode, hfields]
  · rw [decode_push h, encode, hfields]
  · rw [decode_rd h, encode, hfields]
  · rw [decode_reserved h, encode, hfields]

theorem encode_isSome (i : Instr) : (encode i).isSome = i.isCommand := by cases i <;> rfl

/-- Settles O9: the encoder puts the opcode and the operand together that the decoder takes apart. -/
theorem decodeAndEncodeAreInverse : Obligations.DecodeAndEncodeAreInverse :=
  ⟨fun _ _ => decode_of_encode, encode_decode, encode_isSome⟩

/-! ### The opcode map (R82) -/

theorem rowMatches_iff (w : CmdWord) (op : BitVec 2) (mnemonic : String) :
    rowMatches w (mnemonic, commandWord op 0x00#8, 0x300#10) = true ↔ opField w = op := by
  rw [rowMatches, beq_iff_eq, masked_eq_iff]

/-- The rows of the opcode map are the four opcodes, in order. -/
theorem opcodeRows_eq : opcodeRows =
    [("NOP", commandWord 0b00#2 0x00#8, 0x300#10), ("PUSH", commandWord 0b01#2 0x00#8, 0x300#10),
      ("RD", commandWord 0b10#2 0x00#8, 0x300#10), ("RESERVED", commandWord 0b11#2 0x00#8, 0x300#10)] := rfl

/-- The one row of a word is that of the operation it decodes to. -/
theorem filter_rowMatches (w : CmdWord) : (opcodeRows.filter (rowMatches w)).map (·.1) = [(decode w).mnemonic] := by
  rw [opcodeRows_eq]
  rcases opField_cases w with h | h | h | h
  · simp [rowMatches_iff, h, decode_nop h, Instr.mnemonic]
  · simp [rowMatches_iff, h, decode_push h, Instr.mnemonic]
  · simp [rowMatches_iff, h, decode_rd h, Instr.mnemonic]
  · simp [rowMatches_iff, h, decode_reserved h, Instr.mnemonic]

/-- Settles O8: a word in a row has the row's opcode, which alone selects the operation. -/
theorem everyWordDecodesToItsOneRow : Obligations.EveryWordDecodesToItsOneRow := fun w =>
  ⟨filter_rowMatches w,
    fun h => decode_nop ((masked_eq_iff w 0b00#2).1 h), fun h => decode_push ((masked_eq_iff w 0b01#2).1 h),
    fun h => decode_rd ((masked_eq_iff w 0b10#2).1 h), fun h => decode_reserved ((masked_eq_iff w 0b11#2).1 h)⟩

/-- Settles O10, each word by the equation of its opcode. -/
theorem specWordsDecode : Obligations.SpecWordsDecode :=
  ⟨decode_nop rfl, decode_nop rfl, decode_push rfl, decode_push rfl, decode_rd rfl, decode_rd rfl,
    decode_reserved rfl, decode_reserved rfl⟩

end Sys2Proof

namespace Sys2Proof.Machine

/-! ### The assembler's lines (R86, R87) -/

theorem inputs_nop (n : Byte) : Line.inputs (.nop n) = [.cmd (commandWord 0b00#2 n)] :=
  congrArg (fun w => [HostInput.cmd w]) (commandWord_or 0b00#2 n)

theorem inputs_push (b : Byte) : Line.inputs (.push b) = [.cmd (commandWord 0b01#2 b)] :=
  congrArg (fun w => [HostInput.cmd w]) (commandWord_or 0b01#2 b)

theorem inputs_rdAddr (a : Byte) : Line.inputs (.rdAddr a) = [.cmd (commandWord 0b10#2 a)] :=
  congrArg (fun w => [HostInput.cmd w]) (commandWord_or 0b10#2 a)

theorem inputs_rd (r : RegName) : Line.inputs (.rd r) = Line.inputs (.rdAddr r.addr) := rfl

/-- A chunk is one PUSH for each of its bytes, in order (R87). -/
theorem inputs_chunk (bs : Block) : Line.inputs (.chunk bs) = assemble (bs.map .push) := by
  rw [assemble, List.flatMap_map]
  exact List.map_eq_flatMap

theorem inputs_chunk_append (as bs : Block) :
    Line.inputs (.chunk (as ++ bs)) = Line.inputs (.chunk as) ++ Line.inputs (.chunk bs) := List.map_append

/-- Settles O11: each command line stands for the command word of its operation, and R47's addresses are those of the model. -/
theorem assemblerLinesStandForTheirCommands : Obligations.AssemblerLinesStandForTheirCommands :=
  ⟨fun n => ⟨_, inputs_nop n, decode_of_encode rfl⟩,
    fun b => ⟨_, inputs_push b, decode_of_encode rfl⟩,
    fun r => ⟨_, (inputs_rd r).trans (inputs_rdAddr r.addr), decode_of_encode rfl⟩,
    rfl,
    fun a => ⟨_, inputs_rdAddr a, decode_of_encode rfl⟩,
    fun _ => rfl,
    inputs_chunk,
    inputs_chunk_append,
    fun _ _ => ⟨_, _, rfl, rfl, rfl⟩⟩

/-! ### The one response of a command (R88) -/

theorem respond_rsps (d : Word) (e : Bool) (s : State) : (respond d e s).trace.rsps = s.trace.rsps ++ [⟨d, e⟩] := rfl

theorem raise_badCommand_rsps (s : State) : (raise .badCommand s).trace.rsps = s.trace.rsps := rfl

/-- However a block cycle ends, it gives no response: that is the command's, after its pairs (40_extractor.md R100). -/
@[simp] theorem blockCycle_rsps (s : State) : (blockCycle s).trace.rsps = s.trace.rsps := by
  rcases blockCycle_cases s with
    ⟨-, h⟩ | ⟨-, -, -, h⟩ | ⟨-, -, -, h⟩ | ⟨-, -, -, h⟩ | ⟨-, -, -, -, h⟩ | ⟨-, -, -, -, h⟩
  all_goals simp [h, clearBlock]

theorem accept_rsps {bit : Bool} {s t : State} (h : accept bit s = .next t) : t.trace.rsps = s.trace.rsps := by
  obtain ⟨-, ⟨-, rfl⟩ | ⟨-, rfl⟩⟩ := accept_cases h <;> simp

theorem discard_rsps {bit : Bool} {s t : State} (h : discard bit s = .next t) : t.trace.rsps = s.trace.rsps := by
  obtain ⟨-, rfl⟩ := discard_cases h
  simp

theorem pairOf_rsps {b : Byte} {j : Nat} {s t : State} (h : pairOf b j s = .next t) : t.trace.rsps = s.trace.rsps := by
  rcases pair_cases h with ⟨-, h⟩ | ⟨-, u, hfirst, hsecond⟩
  · exact accept_rsps h
  · rw [discard_rsps hsecond, discard_rsps hfirst]

theorem push_rsps {b : Byte} {s t : State} (h : execPush b s = .next t) : t.trace.rsps = s.trace.rsps ++ [⟨0#32, false⟩] := by
  obtain ⟨s1, s2, s3, h1, h2, h3, rfl⟩ := push_cases h
  rw [respond_rsps, pairOf_rsps h3, pairOf_rsps h2, pairOf_rsps h1]

/-- Settles O17, command by command. -/
theorem everyCommandGivesOneResponse : Obligations.EveryCommandGivesOneResponse := by
  intro i s t hi h
  cases i with
  | nop arg =>
    obtain rfl : respond 0#32 false s = t := Host.Outcome.next.inj h
    exact ⟨0#32, false, respond_rsps _ _ s, by simp, by simp, by simp⟩
  | push b => exact ⟨0#32, false, push_rsps h, by simp, by simp, by simp⟩
  | rd a =>
    obtain rfl : respond (reg a s) false s = t := Host.Outcome.next.inj h
    exact ⟨reg a s, false, respond_rsps _ _ s, by simp, by simp, by simp⟩
  | reserved arg =>
    obtain rfl : respond 0#32 true (raise .badCommand s) = t := Host.Outcome.next.inj h
    exact ⟨0#32, true, by rw [respond_rsps, raise_badCommand_rsps], by simp, by simp, by simp⟩
  | _ => exact absurd hi Bool.false_ne_true

end Sys2Proof.Machine
end

section
/-! The extractor (40_extractor.md R100 to R107): the pairs in which discarded bits reach the pool, a PUSH as a number of accepted
and of discarded bits, the block that the accepted bits form, and where the operations stop. -/

namespace Sys2Proof.Machine

/-! ### Discarded bits come in equal pairs (R102, R104) -/

theorem pBit_even_iff (s : State) : s.pBit.val % 2 = 0 ↔ s.pcur % 2 = 0 := by
  simp only [State.pcur, cursorBits]
  omega

theorem ecur_lt_iff (s : State) : s.ecur < 8 * s.par.B ↔ s.eByte < s.par.B := cursorBits_lt_iff _ _ _

theorem pcur_lt_iff (s : State) : s.pcur < 8 * s.par.L ↔ s.pByte < s.par.L := cursorBits_lt_iff _ _ _

/-- The two bits of an equal pair go to an even position and the one after it, for the ring has an even number of bits. -/
theorem discard_twice_poolPaired {b : Bool} {s t u : State} (hwf : s.pool.wf = true) (hs : s.poolPaired)
    (ht : discard b s = .next t) (hu : discard b t = .next u) : u.poolPaired := by
  obtain ⟨hL, rfl⟩ := discard_cases ht
  obtain ⟨hL', rfl⟩ := discard_cases hu
  obtain ⟨heven, hpairs⟩ := hs
  rw [pBit_even_iff] at heven
  have hlt := (pcur_lt_iff s).2 hL
  have hfirst : (writeDiscarded b s).pcur = s.pcur + 1 := by
    rw [writeDiscarded_pcur b hL, Nat.mod_eq_of_lt (by omega)]
  have hsecond : (writeDiscarded b (writeDiscarded b s)).pcur = (s.pcur + 2) % (8 * s.par.L) := by
    rw [writeDiscarded_pcur b hL', hfirst, writeDiscarded_par]
  have hwf' : (writeDiscarded b s).pool.wf = true := by
    rw [writeDiscarded_eq]
    exact Memory.wf_write _ _ hwf
  refine ⟨?_, fun n => ?_⟩
  · rw [pBit_even_iff, hsecond, Nat.mod_mod_of_dvd _ ⟨4 * s.par.L, by ring⟩]
    omega
  · simp only [writeDiscarded_bitPos b _ _ hwf', writeDiscarded_bitPos b _ _ hwf, hfirst]
    by_cases hn : 2 * n = s.pcur
    · simp [hn]
    · rw [if_neg (by omega), if_neg hn, if_neg (by omega), if_neg (by omega), hpairs n]

theorem accept_poolPaired {bit : Bool} {s t : State} (hs : s.poolPaired) (h : accept bit s = .next t) : t.poolPaired := by
  obtain ⟨-, ⟨-, rfl⟩ | ⟨-, rfl⟩⟩ := accept_cases h <;> simpa [State.poolPaired] using hs

/-- `step_keeps_bits` for a property that DISCARD keeps in equal pairs of bits only. -/
theorem step_keeps_pairs (P : State → Prop)
    (hown : ∀ s past pending draws, P s → P { s with past := past, pending := pending, draws := draws })
    (hrst : ∀ p enc pol, p.valid = true → P (State.resetOf p enc pol))
    (hrsp : ∀ d e s, P s → P (respond d e s))
    (hbad : ∀ s, P s → P (raise .badCommand s))
    (hacc : ∀ bit s t, P s → accept bit s = .next t → P t)
    (hdis : ∀ bit s t u, P s → discard bit s = .next t → discard bit t = .next u → P u)
    {s t : State} (hs : P s) (h : step s = .next t) : P t :=
  step_keeps P (fun s rest => hown s s.past rest s.draws) (fun _ _ _ hv => hown _ _ _ _ (hrst _ _ _ hv)) hrsp hbad
    (fun _ _ _ _ hs h => push_keeps P hacc hdis hrsp hs h) hs h

/-- Settles O55, together with the invariant of O53: nothing but a pair of equal bits is written to the pool. -/
theorem stepKeepsThePoolPaired : Obligations.StepKeepsThePoolPaired := fun _ _ hs hpairs h =>
  (step_keeps_pairs (fun s => s.Inv ∧ s.poolPaired)
    (fun _ _ _ _ ⟨hs, hpairs⟩ => ⟨⟨hs.cursors, hs.memories⟩, hpairs⟩)
    (fun p enc pol hp => ⟨inv_resetOf p enc pol hp, poolPaired_resetOf p enc pol⟩)
    (fun _ _ _ ⟨hs, hpairs⟩ => ⟨⟨hs.cursors, hs.memories⟩, hpairs⟩)
    (fun _ ⟨hs, hpairs⟩ => ⟨⟨hs.cursors, hs.memories⟩, hpairs⟩)
    (fun _ _ _ ⟨hs, hpairs⟩ h => ⟨accept_inv hs h, accept_poolPaired hpairs h⟩)
    (fun _ _ _ _ ⟨hs, hpairs⟩ h1 h2 =>
      have ⟨_, ⟨hwf, _⟩, _⟩ := hs.memories
      ⟨discard_inv (discard_inv hs h1) h2, discard_twice_poolPaired hwf hpairs h1 h2⟩)
    ⟨hs, hpairs⟩ h).2

/-! ### PUSH, PAIR, ACCEPT and DISCARD as the port calls them -/

@[simp] theorem exec_push (b : Byte) (s : State) : exec (.push b) s = execPush b s := rfl
@[simp] theorem exec_pair (b0 b1 : Bool) (s : State) : exec (.pair b0 b1) s = pair b0 b1 s := rfl
@[simp] theorem exec_accept (bit : Bool) (s : State) : exec (.accept bit) s = accept bit s := rfl
@[simp] theorem exec_blockCycle (s : State) : exec .blockCycle s = .next (blockCycle s) := rfl

/-- Three pairs that each complete make a PUSH that does. -/
theorem push_next {b : Byte} {s s1 s2 s3 : State} (h1 : pairOf b 0 s = .next s1) (h2 : pairOf b 1 s1 = .next s2)
    (h3 : pairOf b 2 s2 = .next s3) : execPush b s = .next (respond 0#32 false s3) := by
  simp only [execPush, h1, h2, h3, andThen_next]

/-- Settles O18: the bits of pair j are 2j and 2j+1. -/
theorem pushRunsItsThreePairsInOrder : Obligations.PushRunsItsThreePairsInOrder := fun _ _ _ _ _ h1 h2 h3 =>
  push_next h1 h2 h3

/-- The mask keeps the six bits that are examined. -/
theorem getLsbD_and_lowSix (b : Byte) {i : Nat} (hi : i < 6) : (b &&& 0x3F#8).getLsbD i = b.getLsbD i := by
  have hmask : ∀ i < 6, (0x3F#8).getLsbD i = true := by decide
  rw [BitVec.getLsbD_and, hmask i hi, Bool.and_true]

theorem pairOf_and_lowSix (b : Byte) {j : Nat} (hj : j < 3) : pairOf (b &&& 0x3F#8) j = pairOf b j := by
  have hfirst : pairFirst (b &&& 0x3F#8) j = pairFirst b j := getLsbD_and_lowSix b (by omega)
  have hsecond : pairSecond (b &&& 0x3F#8) j = pairSecond b j := getLsbD_and_lowSix b (by omega)
  funext s
  rw [pairOf, pairOf, hfirst, hsecond]

/-- Settles O19: the three pairs are bits 0 to 5. -/
theorem pushIgnoresBitsSevenAndSix : Obligations.PushIgnoresBitsSevenAndSix := fun b s => by
  simp only [exec_push, execPush, pairOf_and_lowSix b (show 0 < 3 by decide), pairOf_and_lowSix b (show 1 < 3 by decide),
    pairOf_and_lowSix b (show 2 < 3 by decide)]

/-- An operation with a block operand runs on a Byte^B alone (log 10). -/
theorem exec_refused_of_block {i : Instr} {blk : Block} {s : State} (h : i.block? = some blk) (hlen : blk.length ≠ s.par.B) :
    exec i s = .refused .blockLength := by
  cases i with
  | fips a | monobit a | poker a | runs a | longrun a | contrun a | encode a | whiten a | encrypt a | unprimed a =>
    obtain rfl : a = blk := Option.some.inj h
    exact if_neg hlen
  | _ => cases h

/-- Settles O46: each stop is the `else` of the operation's own test. -/
theorem execStopsOutsideTheSpecByName : Obligations.ExecStopsOutsideTheSpecByName :=
  ⟨fun _ _ hB => if_neg (Nat.not_lt.2 hB), fun _ _ hL => if_neg (Nat.not_lt.2 hL), fun _ _ _ => exec_refused_of_block⟩

/-- Settles O24, with the state that the write of ACCEPT leaves. -/
theorem acceptWritesTheCursorBit : Obligations.AcceptWritesTheCursorBit := fun bit s hwf hB => by
  have hnext : exec (.accept bit) s = .next (checkFull (writeAccepted bit s)) := accept_next bit hB
  refine ⟨(writeAccepted bit s).ebuf, (writeAccepted bit s).eByte, (writeAccepted bit s).eBit,
    writeAccepted_ecur bit s, fun n => writeAccepted_bitPos bit s n hwf, ?_, _, hnext⟩
  have hstate : { s with
      ebuf := (writeAccepted bit s).ebuf, eByte := (writeAccepted bit s).eByte, eBit := (writeAccepted bit s).eBit }
        = writeAccepted bit s := by rw [writeAccepted_eq]
  rw [hnext, hstate, checkFull, writeAccepted_par]
  split <;> rfl

/-- Settles O25, with the state that the write of DISCARD leaves. -/
theorem discardReplacesTheCursorBit : Obligations.DiscardReplacesTheCursorBit := fun bit s hwf hL => by
  refine ⟨(writeDiscarded bit s).pool, (writeDiscarded bit s).pByte, (writeDiscarded bit s).pBit, ?_,
    writeDiscarded_pcur bit hL, fun n => writeDiscarded_bitPos bit s n hwf⟩
  rw [exec_discard, discard_next bit hL, ← writeDiscarded_primed bit hL, writeDiscarded_eq]

/-! ### A PUSH as accepted and discarded bits (R107) -/

/-- `Moves a d s t`: `a` bits accepted and `d` bits discarded, in some order, lead from `s` to `t`. -/
inductive Moves : Nat → Nat → State → State → Prop
  | refl (s : State) : Moves 0 0 s s
  | accept {a d : Nat} {s t u : State} {bit : Bool} (hst : Moves a d s t) (h : accept bit t = .next u) : Moves (a + 1) d s u
  | discard {a d : Nat} {s t u : State} {bit : Bool} (hst : Moves a d s t) (h : discard bit t = .next u) : Moves a (d + 1) s u

/-- PAIR accepts one bit of a differing pair and discards the two of an equal one (R102). -/
theorem Moves.pair {a d : Nat} {s t u : State} {b0 b1 : Bool} (hst : Moves a d s t) (h : pair b0 b1 t = .next u) :
    Moves (a + (b0 != b1).toNat) (d + 2 * (1 - (b0 != b1).toNat)) s u := by
  rcases pair_cases h with ⟨hne, h⟩ | ⟨rfl, v, hfirst, hsecond⟩
  · rw [bne_iff_ne.2 hne]
    exact hst.accept h
  · rw [bne_self_eq_false]
    exact (hst.discard hfirst).discard hsecond

theorem differingPairs_eq (b : Byte) : differingPairs b =
    (pairFirst b 0 != pairSecond b 0).toNat + (pairFirst b 1 != pairSecond b 1).toNat
      + (pairFirst b 2 != pairSecond b 2).toNat := rfl

/-- The three pairs of a PUSH, before its response. -/
theorem push_moves {b : Byte} {s t : State} (h : execPush b s = .next t) :
    ∃ u, Moves (differingPairs b) (2 * (3 - differingPairs b)) s u ∧ t = respond 0#32 false u := by
  obtain ⟨s1, s2, u, h1, h2, h3, rfl⟩ := push_cases h
  refine ⟨u, ?_, rfl⟩
  have hmoves := (((Moves.refl s).pair h1).pair h2).pair h3
  rw [differingPairs_eq]
  convert hmoves using 1
  · omega
  · have hfirst := Bool.toNat_le (pairFirst b 0 != pairSecond b 0)
    have hsecond := Bool.toNat_le (pairFirst b 1 != pairSecond b 1)
    have hthird := Bool.toNat_le (pairFirst b 2 != pairSecond b 2)
    omega

/-! ### What accepted and discarded bits leave (R102, R163, R165) -/

/-- `t` has what no bit of a PUSH writes in `s`: the parameters, the straps, `err_cmd` and the model's own fields; the PreviousBlock
in encrypted mode; the unprimed counter and the cores' requests in whitening mode. -/
structure State.Framed (s t : State) : Prop where
  par : t.par = s.par
  cfgEncrypt : t.cfgEncrypt = s.cfgEncrypt
  cfgPolicy : t.cfgPolicy = s.cfgPolicy
  errCmd : t.errCmd = s.errCmd
  past : t.past = s.past
  pending : t.pending = s.pending
  resetDone : t.resetDone = s.resetDone
  draws : t.draws = s.draws
  ret : t.ret = s.ret
  encrypted : s.cfgEncrypt = true → t.prev = s.prev ∧ t.prevValid = s.prevValid
  whitening : s.cfgEncrypt = false →
    t.cntUnprimed = s.cntUnprimed ∧ t.trace.hashCalls = s.trace.hashCalls ∧ t.trace.cipherCalls = s.trace.cipherCalls

theorem State.Framed.refl (s : State) : s.Framed s :=
  ⟨rfl, rfl, rfl, rfl, rfl, rfl, rfl, rfl, rfl, fun _ => ⟨rfl, rfl⟩, fun _ => ⟨rfl, rfl, rfl⟩⟩

theorem State.Framed.trans {s t u : State} (hst : s.Framed t) (htu : t.Framed u) : s.Framed u where
  par := htu.par.trans hst.par
  cfgEncrypt := htu.cfgEncrypt.trans hst.cfgEncrypt
  cfgPolicy := htu.cfgPolicy.trans hst.cfgPolicy
  errCmd := htu.errCmd.trans hst.errCmd
  past := htu.past.trans hst.past
  pending := htu.pending.trans hst.pending
  resetDone := htu.resetDone.trans hst.resetDone
  draws := htu.draws.trans hst.draws
  ret := htu.ret.trans hst.ret
  encrypted := fun hm =>
    have ⟨hprev, hvalid⟩ := hst.encrypted hm
    have ⟨hprev', hvalid'⟩ := htu.encrypted (hst.cfgEncrypt.trans hm)
    ⟨hprev'.trans hprev, hvalid'.trans hvalid⟩
  whitening := fun hm =>
    have ⟨hcnt, hhash, hcipher⟩ := hst.whitening hm
    have ⟨hcnt', hhash', hcipher'⟩ := htu.whitening (hst.cfgEncrypt.trans hm)
    ⟨hcnt'.trans hcnt, hhash'.trans hhash, hcipher'.trans hcipher⟩

theorem framed_respond (d : Word) (e : Bool) (s : State) : s.Framed (respond d e s) := { State.Framed.refl s with }

theorem framed_writeAccepted (bit : Bool) (s : State) : s.Framed (writeAccepted bit s) := by
  rw [writeAccepted_eq]
  exact { State.Framed.refl s with }

theorem framed_writeDiscarded (bit : Bool) (s : State) : s.Framed (writeDiscarded bit s) := by
  rw [writeDiscarded_eq]
  exact { State.Framed.refl s with }

/-- ENCODE writes `prev` in whitening mode only, and counts an unprimed block or calls the cores in encrypted mode only. -/
theorem framed_blockCycle (s : State) : s.Framed (blockCycle s) := by
  have hmode : (s.cfgEncrypt = true → (blockCycle s).prev = s.prev ∧ (blockCycle s).prevValid = s.prevValid) ∧
      (s.cfgEncrypt = false → (blockCycle s).cntUnprimed = s.cntUnprimed ∧
        (blockCycle s).trace.hashCalls = s.trace.hashCalls ∧ (blockCycle s).trace.cipherCalls = s.trace.cipherCalls) := by
    rcases blockCycle_cases s with
      ⟨-, h⟩ | ⟨-, hm, -, h⟩ | ⟨-, hm, -, h⟩ | ⟨-, hm, -, h⟩ | ⟨-, hm, -, -, h⟩ | ⟨-, hm, -, -, h⟩
    · simp [h]
    all_goals simp [h, hm]
  obtain ⟨hencrypted, hwhitening⟩ := hmode
  exact ⟨blockCycle_par s, blockCycle_cfgEncrypt s, blockCycle_cfgPolicy s, blockCycle_errCmd s, blockCycle_past s,
    blockCycle_pending s, blockCycle_resetDone s, blockCycle_draws s, blockCycle_ret s, hencrypted, hwhitening⟩

theorem framed_accept {bit : Bool} {s t : State} (h : accept bit s = .next t) : s.Framed t := by
  obtain ⟨-, ⟨-, rfl⟩ | ⟨-, rfl⟩⟩ := accept_cases h
  · exact framed_writeAccepted bit s
  · exact (framed_writeAccepted bit s).trans (framed_blockCycle _)

theorem framed_discard {bit : Bool} {s t : State} (h : discard bit s = .next t) : s.Framed t := by
  obtain ⟨-, rfl⟩ := discard_cases h
  exact framed_writeDiscarded bit s

theorem Moves.framed {a d : Nat} {s t : State} (h : Moves a d s t) : s.Framed t := by
  induction h with
  | refl => exact State.Framed.refl _
  | accept _ h ih => exact ih.trans (framed_accept h)
  | discard _ h ih => exact ih.trans (framed_discard h)

theorem accept_pool {bit : Bool} {s t : State} (h : accept bit s = .next t) :
    t.pool = s.pool ∧ t.pByte = s.pByte ∧ t.pBit = s.pBit ∧ t.primed = s.primed := by
  obtain ⟨-, ⟨-, rfl⟩ | ⟨-, rfl⟩⟩ := accept_cases h <;> simp

theorem discard_ebuf {bit : Bool} {s t : State} (h : discard bit s = .next t) :
    t.ebuf = s.ebuf ∧ t.eByte = s.eByte ∧ t.eBit = s.eBit := by
  obtain ⟨-, rfl⟩ := discard_cases h
  simp

/-- Accepted bits alone leave the pool. -/
theorem Moves.pool_of_no_discard {a d : Nat} {s t : State} (h : Moves a d s t) (hd : d = 0) :
    t.pool = s.pool ∧ t.pByte = s.pByte ∧ t.pBit = s.pBit ∧ t.primed = s.primed := by
  induction h with
  | refl => exact ⟨rfl, rfl, rfl, rfl⟩
  | accept _ h ih =>
    obtain ⟨hpool, hbyte, hbit, hprimed⟩ := accept_pool h
    rw [hpool, hbyte, hbit, hprimed]
    exact ih hd
  | discard => exact absurd hd (Nat.succ_ne_zero _)

/-- Discarded bits alone leave the accumulator. -/
theorem Moves.ebuf_of_no_accept {a d : Nat} {s t : State} (h : Moves a d s t) (ha : a = 0) :
    t.ebuf = s.ebuf ∧ t.eByte = s.eByte ∧ t.eBit = s.eBit := by
  induction h with
  | refl => exact ⟨rfl, rfl, rfl⟩
  | accept => exact absurd ha (Nat.succ_ne_zero _)
  | discard _ h ih =>
    obtain ⟨hebuf, hbyte, hbit⟩ := discard_ebuf h
    rw [hebuf, hbyte, hbit]
    exact ih ha

/-! ### Bits that do not fill the block -/

/-- An ACCEPT that leaves the block short of its end runs no block cycle (R106). -/
theorem accept_eq_of_lt {bit : Bool} {s t : State} (hlt : s.ecur + 1 < 8 * s.par.B) (h : accept bit s = .next t) :
    t = writeAccepted bit s := by
  obtain ⟨-, ⟨-, rfl⟩ | ⟨hfull, -⟩⟩ := accept_cases h
  · rfl
  · omega

/-- An ACCEPT of the block's last bit runs it. -/
theorem accept_eq_of_full {bit : Bool} {s t : State} (hfull : s.ecur + 1 = 8 * s.par.B) (h : accept bit s = .next t) :
    t = blockCycle (writeAccepted bit s) := by
  obtain ⟨-, ⟨hlt, -⟩ | ⟨-, rfl⟩⟩ := accept_cases h
  · omega
  · rfl

/-- `s` with the two buffers, their cursors and `primed` of `u`. -/
def State.withBuffersOf (s u : State) : State :=
  { s with
    ebuf := u.ebuf, eByte := u.eByte, eBit := u.eBit, pool := u.pool, pByte := u.pByte, pBit := u.pBit, primed := u.primed }

theorem withBuffersOf_writeAccepted (bit : Bool) (s : State) : s.withBuffersOf (writeAccepted bit s) = writeAccepted bit s := by
  rw [writeAccepted_eq]; rfl

theorem withBuffersOf_writeDiscarded (bit : Bool) (s : State) :
    s.withBuffersOf (writeDiscarded bit s) = writeDiscarded bit s := by
  rw [writeDiscarded_eq]; rfl

theorem discard_ecur {bit : Bool} {s t : State} (h : discard bit s = .next t) : t.ecur = s.ecur := by
  obtain ⟨-, hbyte, hbit⟩ := discard_ebuf h
  rw [State.ecur, hbyte, hbit, State.ecur]

theorem accept_pcur {bit : Bool} {s t : State} (h : accept bit s = .next t) : t.pcur = s.pcur := by
  obtain ⟨-, hbyte, hbit, -⟩ := accept_pool h
  rw [State.pcur, hbyte, hbit, State.pcur]

section
variable {a d : Nat} {s t : State}

/-- Short of the block's end the accumulator cursor goes on by one for each accepted bit, and nothing but the buffers changes. -/
theorem Moves.of_lt (h : Moves a d s t) (hlt : s.ecur + a < 8 * s.par.B) :
    t.ecur = s.ecur + a ∧ t = s.withBuffersOf t := by
  induction h with
  | refl => exact ⟨rfl, rfl⟩
  | @accept a d s t u bit hst h ih =>
    obtain ⟨hecur, ht⟩ := ih (by omega)
    obtain rfl := accept_eq_of_lt (by rw [hecur, hst.framed.par]; omega) h
    refine ⟨by rw [writeAccepted_ecur, hecur, Nat.add_assoc], ?_⟩
    rw [← withBuffersOf_writeAccepted, ht]
    rfl
  | @discard a d s t u bit hst h ih =>
    obtain ⟨hecur, ht⟩ := ih hlt
    refine ⟨by rw [discard_ecur h, hecur], ?_⟩
    obtain ⟨-, rfl⟩ := discard_cases h
    rw [← withBuffersOf_writeDiscarded, ht]
    rfl

/-! ### The cursors, `primed` and the count of block cycles (R107) -/

/-- The accumulator cursor goes on by one for each accepted bit, and the block cycle takes 8*B off it. -/
theorem Moves.ecur_mod (h : Moves a d s t) : t.ecur % (8 * s.par.B) = (s.ecur + a) % (8 * s.par.B) := by
  induction h with
  | refl => rfl
  | @accept a d s t u bit hst h ih =>
    have hone : u.ecur % (8 * s.par.B) = (t.ecur + 1) % (8 * s.par.B) := by
      obtain ⟨-, ⟨-, rfl⟩ | ⟨hfull, rfl⟩⟩ := accept_cases h
      · rw [writeAccepted_ecur]
      · rw [← hst.framed.par, hfull, Nat.mod_self, State.ecur, blockCycle_eByte, blockCycle_eBit]
        exact Nat.zero_mod _
    rw [hone, Nat.add_mod, ih, ← Nat.add_mod, Nat.add_assoc]
  | discard _ h ih => rw [discard_ecur h, ih]

/-- The pool cursor goes on by one for each discarded bit, modulo the ring. -/
theorem Moves.pcur_mod (h : Moves a d s t) : t.pcur % (8 * s.par.L) = (s.pcur + d) % (8 * s.par.L) := by
  induction h with
  | refl => rfl
  | accept _ h ih => rw [accept_pcur h, ih]
  | discard hst h ih =>
    obtain ⟨hL, rfl⟩ := discard_cases h
    rw [writeDiscarded_pcur _ hL, hst.framed.par, Nat.mod_mod, Nat.add_mod, ih, ← Nat.add_mod, Nat.add_assoc]

theorem Moves.ecur (h : Moves a d s t) (hB : t.eByte < t.par.B) : t.ecur = (s.ecur + a) % (8 * s.par.B) := by
  rw [← h.ecur_mod, ← h.framed.par]
  exact (Nat.mod_eq_of_lt ((ecur_lt_iff t).2 hB)).symm

theorem Moves.pcur (h : Moves a d s t) (hL : t.pByte < t.par.L) : t.pcur = (s.pcur + d) % (8 * s.par.L) := by
  rw [← h.pcur_mod, ← h.framed.par]
  exact (Nat.mod_eq_of_lt ((pcur_lt_iff t).2 hL)).symm

/-- `primed` is set by the discarded bit that wraps the ring (R104). -/
theorem Moves.primed (h : Moves a d s t) (hL : s.pByte < s.par.L) :
    t.primed = (s.primed || decide (8 * s.par.L ≤ s.pcur + d)) := by
  induction h with
  | refl s => rw [Nat.add_zero, decide_eq_false (Nat.not_le.2 ((pcur_lt_iff s).2 hL)), Bool.or_false]
  | accept _ h ih =>
    obtain ⟨-, -, -, hprimed⟩ := accept_pool h
    rw [hprimed, ih hL]
  | @discard a d s t u bit hst h ih =>
    obtain ⟨hL', rfl⟩ := discard_cases h
    rw [writeDiscarded_primed _ hL', ih hL, hst.pcur hL', hst.framed.par, Bool.or_assoc, ← Bool.decide_or]
    congr 2
    rw [eq_iff_iff]
    by_cases hwrap : 8 * s.par.L ≤ s.pcur + d
    · omega
    · rw [Nat.mod_eq_of_lt (by omega)]
      omega

/-- At most a block's worth of accepted bits runs at most one block cycle, when they reach 8*B (R106). -/
theorem Moves.cntBlocks (h : Moves a d s t) (hB : s.eByte < s.par.B) (ha : a ≤ 8 * s.par.B) :
    t.cntBlocks = if 8 * s.par.B ≤ s.ecur + a then satInc s.cntBlocks else s.cntBlocks := by
  induction h with
  | refl s => rw [Nat.add_zero, if_neg (Nat.not_le.2 ((ecur_lt_iff s).2 hB))]
  | @accept a d s t u bit hst h ih =>
    have hlt := (ecur_lt_iff s).2 hB
    obtain ⟨hB', hcases⟩ := accept_cases h
    specialize ih hB (by omega)
    rw [hst.ecur hB', hst.framed.par] at hcases
    by_cases hfilled : 8 * s.par.B ≤ s.ecur + a
    · rw [Nat.mod_eq_sub_mod hfilled, Nat.mod_eq_of_lt (by omega)] at hcases
      rcases hcases with ⟨-, rfl⟩ | ⟨hfull, -⟩
      · rw [writeAccepted_cntBlocks, ih, if_pos hfilled, if_pos (by omega)]
      · omega
    · rw [Nat.mod_eq_of_lt (by omega)] at hcases
      rw [if_neg hfilled] at ih
      rcases hcases with ⟨hroom, rfl⟩ | ⟨hfull, rfl⟩
      · rw [writeAccepted_cntBlocks, ih, if_neg (by omega)]
      · rw [blockCycle_cntBlocks, writeAccepted_cntBlocks, ih, if_pos (by omega)]
  | discard _ h ih =>
    obtain ⟨-, rfl⟩ := discard_cases h
    rw [writeDiscarded_cntBlocks, ih hB ha]

/-! ### Bits of memory (R103, R104) -/

/-- The three memories are in canonical form. -/
structure State.MemoriesWf (s : State) : Prop where
  ebuf : s.ebuf.wf = true
  pool : s.pool.wf = true
  prev : s.prev.wf = true

theorem writeAccepted_memoriesWf (bit : Bool) {s : State} (hs : s.MemoriesWf) : (writeAccepted bit s).MemoriesWf := by
  rw [writeAccepted_eq]
  exact ⟨Memory.wf_write _ _ hs.ebuf, hs.pool, hs.prev⟩

theorem writeDiscarded_memoriesWf (bit : Bool) {s : State} (hs : s.MemoriesWf) : (writeDiscarded bit s).MemoriesWf := by
  rw [writeDiscarded_eq]
  exact ⟨hs.ebuf, Memory.wf_write _ _ hs.pool, hs.prev⟩

theorem blockCycle_memoriesWf {s : State} (hs : s.MemoriesWf) : (blockCycle s).MemoriesWf := by
  refine ⟨?_, ?_, ?_⟩
  · rw [blockCycle_ebuf]
    exact Memory.wf_writeBlock _ hs.ebuf
  · rw [blockCycle_pool]
    exact hs.pool
  · rcases blockCycle_prev s with h | h <;> rw [h]
    · exact hs.prev
    · exact Memory.wf_writeBlock _ hs.prev

theorem Moves.memoriesWf (h : Moves a d s t) (hs : s.MemoriesWf) : t.MemoriesWf := by
  induction h with
  | refl => exact hs
  | accept _ h ih =>
    obtain ⟨-, ⟨-, rfl⟩ | ⟨-, rfl⟩⟩ := accept_cases h
    · exact writeAccepted_memoriesWf _ (ih hs)
    · exact blockCycle_memoriesWf (writeAccepted_memoriesWf _ (ih hs))
  | discard _ h ih =>
    obtain ⟨-, rfl⟩ := discard_cases h
    exact writeDiscarded_memoriesWf _ (ih hs)

/-- A bit of the pool changes only where the cursor stood when a bit was discarded. -/
theorem Moves.pool_bitPos (h : Moves a d s t) (hs : s.MemoriesWf) {n : Nat}
    (hn : ∀ k < d, n ≠ (s.pcur + k) % (8 * s.par.L)) : t.pool.bitPos n = s.pool.bitPos n := by
  induction h with
  | refl => rfl
  | accept _ h ih =>
    obtain ⟨hpool, -, -, -⟩ := accept_pool h
    rw [hpool, ih hs hn]
  | @discard a d s t u bit hst h ih =>
    obtain ⟨hL, rfl⟩ := discard_cases h
    rw [writeDiscarded_bitPos _ _ _ (hst.memoriesWf hs).pool, hst.pcur hL, if_neg (hn d (Nat.lt_succ_self d)),
      ih hs fun k hk => hn k (Nat.lt_succ_of_lt hk)]

/-- Short of the block's end, a bit of `ebuf` changes only where the cursor stood when a bit was accepted. -/
theorem Moves.ebuf_bitPos (h : Moves a d s t) (hs : s.MemoriesWf) (hlt : s.ecur + a < 8 * s.par.B) {n : Nat}
    (hn : ∀ k < a, n ≠ s.ecur + k) : t.ebuf.bitPos n = s.ebuf.bitPos n := by
  induction h with
  | refl => rfl
  | @accept a d s t u bit hst h ih =>
    obtain ⟨hecur, -⟩ := hst.of_lt (by omega)
    obtain rfl := accept_eq_of_lt (by rw [hecur, hst.framed.par]; omega) h
    rw [writeAccepted_bitPos _ _ _ (hst.memoriesWf hs).ebuf, hecur, if_neg (hn a (Nat.lt_succ_self a)),
      ih hs (by omega) fun k hk => hn k (Nat.lt_succ_of_lt hk)]
  | discard _ h ih =>
    obtain ⟨hebuf, -, -⟩ := discard_ebuf h
    rw [hebuf, ih hs hlt hn]

theorem Memory.read_writeBlock_of_le {m : Memory} {blk : Block} {i : Nat} (hwf : m.wf = true) (hi : blk.length ≤ i) :
    (m.writeBlock blk).read i = m.read i := by
  rw [Memory.read_writeBlock blk i hwf, if_neg (Nat.not_lt.2 hi)]

/-- The clear and a new `prev` are B bytes (R163, R170). -/
theorem blockCycle_read_of_le {s : State} (hs : s.MemoriesWf) {i : Nat} (hi : s.par.B ≤ i) :
    (blockCycle s).ebuf.read i = s.ebuf.read i ∧ (blockCycle s).prev.read i = s.prev.read i := by
  refine ⟨?_, ?_⟩
  · rw [blockCycle_ebuf]
    exact Memory.read_writeBlock_of_le hs.ebuf (by simpa using hi)
  · rcases blockCycle_prev s with h | h <;> rw [h]
    exact Memory.read_writeBlock_of_le hs.prev (by simpa using hi)

theorem writeAccepted_read_of_le (bit : Bool) {s : State} (hs : s.MemoriesWf) (hB : s.eByte < s.par.B) {i : Nat}
    (hi : s.par.B ≤ i) : (writeAccepted bit s).ebuf.read i = s.ebuf.read i := by
  rw [writeAccepted_eq]
  exact (Memory.read_write _ _ i hs.ebuf).trans (if_neg (by omega))

/-- Nothing at or beyond the capacity of `ebuf` and `prev` is written. -/
theorem Moves.read_of_le (h : Moves a d s t) (hs : s.MemoriesWf) {i : Nat} (hi : s.par.B ≤ i) :
    t.ebuf.read i = s.ebuf.read i ∧ t.prev.read i = s.prev.read i := by
  induction h with
  | refl => exact ⟨rfl, rfl⟩
  | @accept a d s t u bit hst h ih =>
    have ht := hst.memoriesWf hs
    have hi' : t.par.B ≤ i := by rwa [hst.framed.par]
    obtain ⟨hB, hcases⟩ := accept_cases h
    rw [← (ih hs hi).1, ← (ih hs hi).2, ← writeAccepted_read_of_le bit ht hB hi', ← writeAccepted_prev bit t]
    rcases hcases with ⟨-, rfl⟩ | ⟨-, rfl⟩
    · exact ⟨rfl, rfl⟩
    · exact blockCycle_read_of_le (writeAccepted_memoriesWf bit ht) (by simpa using hi')
  | discard _ h ih =>
    obtain ⟨-, rfl⟩ := discard_cases h
    simpa using ih hs hi

/-! ### PAIR and PUSH complete where the cursors are in range -/

theorem accept_cursorsInRange {bit : Bool} (hs : s.cursorsInRange) (h : accept bit s = .next t) : t.cursorsInRange := by
  obtain ⟨hbyte, hpar⟩ : t.pByte = s.pByte ∧ t.par = s.par := ⟨(accept_pool h).2.1, (framed_accept h).par⟩
  refine ⟨?_, by rw [hbyte, hpar]; exact hs.2⟩
  obtain ⟨hB, ⟨hroom, rfl⟩ | ⟨-, rfl⟩⟩ := accept_cases h
  · rw [← ecur_lt_iff, writeAccepted_ecur, writeAccepted_par]
    exact hroom
  · simpa using Nat.zero_lt_of_lt hB

theorem discard_cursorsInRange {bit : Bool} (hs : s.cursorsInRange) (h : discard bit s = .next t) : t.cursorsInRange := by
  obtain ⟨hL, rfl⟩ := discard_cases h
  refine ⟨by simpa using hs.1, (pcur_lt_iff _).1 ?_⟩
  rw [writeDiscarded_pcur bit hL, writeDiscarded_par]
  exact Nat.mod_lt _ (by omega)

theorem pair_of_ne {b0 b1 : Bool} (hne : b0 ≠ b1) (s : State) : pair b0 b1 s = accept b0 s := if_pos hne

theorem pair_of_eq (b : Bool) (s : State) : pair b b s = andThen (discard b s) (discard b) := if_neg (not_not.2 rfl)

theorem pair_completes (b0 b1 : Bool) (hs : s.cursorsInRange) : ∃ t, pair b0 b1 s = .next t ∧ t.cursorsInRange := by
  by_cases hne : b0 = b1
  · subst hne
    have hfirst := discard_next b0 hs.2
    have hs' := discard_cursorsInRange hs hfirst
    have hsecond := discard_next b0 hs'.2
    exact ⟨_, by rw [pair_of_eq, hfirst, andThen_next, hsecond], discard_cursorsInRange hs' hsecond⟩
  · have hnext := accept_next b0 hs.1
    exact ⟨_, by rw [pair_of_ne hne, hnext], accept_cursorsInRange hs hnext⟩

theorem push_completes (b : Byte) (hs : s.cursorsInRange) : ∃ t, execPush b s = .next t ∧ t.cursorsInRange := by
  obtain ⟨s1, h1, hs1⟩ := pair_completes (pairFirst b 0) (pairSecond b 0) hs
  obtain ⟨s2, h2, hs2⟩ := pair_completes (pairFirst b 1) (pairSecond b 1) hs1
  obtain ⟨s3, h3, hs3⟩ := pair_completes (pairFirst b 2) (pairSecond b 2) hs2
  exact ⟨_, push_next h1 h2 h3, hs3⟩

end

/-! ### What PUSH and PAIR do and leave -/

theorem differingPairs_le (b : Byte) : differingPairs b ≤ 3 := by
  rw [differingPairs_eq]
  exact Nat.add_le_add (Nat.add_le_add (Bool.toNat_le _) (Bool.toNat_le _)) (Bool.toNat_le _)

/-- Settles O20: a PUSH completes, and its accepted and discarded bits move the cursors. -/
theorem pushMovesTheCursorsByItsPairs : Obligations.PushMovesTheCursorsByItsPairs := fun b s hs => by
  obtain ⟨t, ht, hin⟩ := push_completes b hs
  obtain ⟨u, hmoves, rfl⟩ := push_moves ht
  have hblock : differingPairs b ≤ 8 * s.par.B := by
    have hle := differingPairs_le b
    have hB := hs.1
    omega
  exact ⟨_, ht, hin, hmoves.ecur hin.1, hmoves.pcur hin.2, hmoves.primed hs.2, hmoves.cntBlocks hs.1 hblock⟩

/-- Settles O21, each clause by the frame of the bits that a PUSH accepts and discards. -/
theorem pushFrame : Obligations.PushFrame := fun b s t h => by
  obtain ⟨u, hmoves, rfl⟩ := push_moves h
  obtain ⟨hpar, hencrypt, hpolicy, herr, hpast, hpending, hreset, hdraws, hret, hencrypted, hwhitening⟩ :=
    hmoves.framed.trans (framed_respond 0#32 false u)
  exact ⟨⟨hpar, hencrypt, hpolicy, herr, hpast, hpending, hreset, hdraws, hret⟩, hencrypted, hwhitening,
    hmoves.ebuf_of_no_accept, fun hall => hmoves.pool_of_no_discard (by rw [hall]),
    fun hlt => congrArg (respond 0#32 false) (hmoves.of_lt hlt).2⟩

/-- Settles O22, from where the accepted and the discarded bits of a PUSH are written. -/
theorem pushLeavesEveryOtherBit : Obligations.PushLeavesEveryOtherBit := fun b s t hebuf hpool hprev h => by
  obtain ⟨u, hmoves, rfl⟩ := push_moves h
  have hs : s.MemoriesWf := ⟨hebuf, hpool, hprev⟩
  exact ⟨fun _ => hmoves.pool_bitPos hs, fun hlt _ => hmoves.ebuf_bitPos hs hlt, fun _ => hmoves.read_of_le hs⟩

/-- Settles O23: each kind of pair is its own branch of PAIR. -/
theorem pairFollowsVonNeumann : Obligations.PairFollowsVonNeumann := fun b0 b1 s => by
  refine ⟨fun hne => pair_of_ne hne s, fun hne t h => ?_, fun heq u hu => ?_, fun hs => ?_⟩
  · exact accept_pool ((pair_of_ne hne s).symm.trans h)
  · subst heq
    exact (pair_of_eq b0 s).trans (congrArg (andThen · (discard b0)) hu)
  · obtain ⟨t, ht, -⟩ := pair_completes b0 b1 hs
    exact ⟨t, ht⟩

/-! ### The key of a block that a pair fills (R106, R166) -/

/-- A block cycle calls the hash with the whole pool or not at all (R166). -/
theorem blockCycle_hashCalls (s : State) : (blockCycle s).trace.hashCalls = s.trace.hashCalls ∨
    (blockCycle s).trace.hashCalls = s.trace.hashCalls ++ [s.pool.block s.par.L] := by
  rcases blockCycle_cases s with
    ⟨-, h⟩ | ⟨-, -, -, h⟩ | ⟨-, -, -, h⟩ | ⟨-, -, -, h⟩ | ⟨-, -, -, -, h⟩ | ⟨-, -, -, -, h⟩
  all_goals simp [h]

/-- An ACCEPT that calls the hash calls it once, with the pool as the ACCEPT found it. -/
theorem accept_hashCalls {bit : Bool} {s t : State} (h : accept bit s = .next t)
    (hcall : t.trace.hashCalls ≠ s.trace.hashCalls) :
    t.trace.hashCalls = s.trace.hashCalls ++ [s.pool.block s.par.L] := by
  obtain ⟨-, ⟨-, rfl⟩ | ⟨-, rfl⟩⟩ := accept_cases h
  · exact absurd (by rw [writeAccepted_trace]) hcall
  · have hcycle := blockCycle_hashCalls (writeAccepted bit s)
    rw [writeAccepted_trace, writeAccepted_pool, writeAccepted_par] at hcycle
    exact hcycle.resolve_left hcall

/-- Bits that leave the block short of its end call no core and emit nothing. -/
theorem Moves.trace_of_lt {a d : Nat} {s t : State} (h : Moves a d s t) (hlt : s.ecur + a < 8 * s.par.B) :
    t.trace = s.trace := by
  rw [(h.of_lt hlt).2]
  rfl

/-- The bit that fills the block empties the accumulator, so fewer than eight bits after it call no core and emit nothing. -/
theorem cores_idle_after_filling {a d : Nat} {s t u : State} {bit : Bool} (hfull : s.ecur + 1 = 8 * s.par.B)
    (hu : accept bit s = .next u) (h : Moves a d u t) (ha : a < 8) :
    t.trace.out = u.trace.out ∧ t.trace.hashCalls = u.trace.hashCalls ∧ t.trace.cipherCalls = u.trace.cipherCalls := by
  obtain rfl := accept_eq_of_full hfull hu
  have hempty : (blockCycle (writeAccepted bit s)).ecur = 0 := by simp [State.ecur, cursorBits]
  rw [h.trace_of_lt (by rw [hempty, blockCycle_par, writeAccepted_par]; omega)]
  exact ⟨rfl, rfl, rfl⟩

/-- Settles O47: the filling pair is one ACCEPT, and the pairs before and after it leave the block short of its end. -/
theorem keyIsTakenBeforeTheLaterPairs : Obligations.KeyIsTakenBeforeTheLaterPairs := fun b s hs => by
  obtain ⟨t, ht, -⟩ := push_completes b hs.inv.cursors
  obtain ⟨s1, s2, s3, h1, h2, h3, rfl⟩ := push_cases ht
  have hthird := Bool.toNat_le (pairFirst b 2 != pairSecond b 2)
  refine ⟨fun hfull hne => ?_, fun hfull hne => ?_⟩
  · have hsecond := Bool.toNat_le (pairFirst b 1 != pairSecond b 1)
    have haccept : accept (pairFirst b 0) s = .next s1 := (pair_of_ne hne s).symm.trans h1
    obtain ⟨hout, hhash, hcipher⟩ :=
      cores_idle_after_filling hfull haccept (((Moves.refl s1).pair h2).pair h3) (by omega)
    exact ⟨s1, _, haccept, ht, (accept_pool haccept).1, hout, hhash, hcipher, accept_hashCalls haccept⟩
  · have hfirst := (Moves.refl s).pair h1
    have hlt : s.ecur + (0 + (pairFirst b 0 != pairSecond b 0).toNat) < 8 * s.par.B := by
      rw [Nat.zero_add, ← hfull]
      exact Nat.lt_succ_self _
    have hpar : s1.par = s.par := hfirst.framed.par
    have hbefore : s1.trace = s.trace := hfirst.trace_of_lt hlt
    have hfull' : s1.ecur + 1 = 8 * s1.par.B := by
      rw [(hfirst.of_lt hlt).1, Nat.zero_add, hpar]
      exact hfull
    have haccept : accept (pairFirst b 1) s1 = .next s2 := (pair_of_ne hne s1).symm.trans h2
    obtain ⟨hout, hhash, hcipher⟩ := cores_idle_after_filling hfull' haccept ((Moves.refl s2).pair h3) (by omega)
    exact ⟨s1, s2, _, h1, haccept, ht, congrArg Trace.hashCalls hbefore, congrArg Trace.cipherCalls hbefore,
      congrArg Trace.out hbefore, (accept_pool haccept).1, hout, hhash, hcipher,
      fun hcall => hpar ▸ accept_hashCalls haccept hcall⟩

/-! ### The block that the accepted bits form (R107, R132) -/

theorem byteBits_read (m : Memory) (i : Nat) : byteBits (m.read i) = (List.range 8).map fun k => m.bitPos (8 * i + k) := by
  refine List.map_congr_left fun k hk => ?_
  have hk := List.mem_range.1 hk
  rw [Memory.bitPos, Memory.bit, show (8 * i + k) / 8 = i by omega, show (8 * i + k) % 8 = k by omega]

/-- The flat sequence of the first bytes of a memory is its bits in the order a cursor visits them. -/
theorem flat_block (n : Nat) (m : Memory) : flat (m.block n) = (List.range (8 * n)).map m.bitPos := by
  induction n with
  | zero => rfl
  | succ n ih =>
    have hblock : m.block (n + 1) = m.block n ++ [m.read n] := by simp [Memory.block, List.range_succ]
    have hflat : flat (m.block n ++ [m.read n]) = flat (m.block n) ++ byteBits (m.read n) := by simp [flat]
    rw [hblock, hflat, ih, byteBits_read, Nat.mul_succ, List.range_add, List.map_append, List.map_map]
    rfl

/-- The bit that fills the block leaves the cursor at the capacity. -/
theorem writeAccepted_of_full (bit : Bool) {s : State} (hfull : s.ecur + 1 = 8 * s.par.B) :
    writeAccepted bit s = { s with ebuf := (writeAccepted bit s).ebuf, eByte := s.par.B, eBit := 0 } := by
  rw [← writeAccepted_ecur bit s] at hfull
  obtain ⟨hbyte, hbit⟩ := (cursorBits_eq_iff _ _ _).1 hfull.symm
  have heByte : (writeAccepted bit s).eByte = s.par.B := by omega
  have heBit : (writeAccepted bit s).eBit = 0 := Fin.ext (by rw [← hbit]; exact Nat.mul_mod_right 8 _)
  conv_rhs => rw [← heByte, ← heBit]
  rw [writeAccepted_eq]

/-- `m` is `s.ebuf` with the bits `bs` from the cursor on. -/
structure State.Holds (s : State) (bs : List Bool) (m : Memory) : Prop where
  before : ∀ n < s.ecur, m.bitPos n = s.ebuf.bitPos n
  from_cursor : ∀ k < bs.length, m.bitPos (s.ecur + k) = bs.getD k false

theorem State.Holds.nil (s : State) : s.Holds [] s.ebuf := ⟨fun _ _ => rfl, fun k hk => absurd hk (Nat.not_lt_zero k)⟩

/-- The OR of R103 is the bit itself, since `ebuf` is clear at its cursor (10_state.md R23). -/
theorem State.Holds.cons {b : Bool} {bs : List Bool} {s : State} {m : Memory} (hs : s.memoriesOk)
    (hclear : s.clearBeyondCursor) (h : (writeAccepted b s).Holds bs m) : s.Holds (b :: bs) m := by
  obtain ⟨hbefore, hfrom⟩ := h
  obtain ⟨⟨hwf, -⟩, -, -⟩ := hs
  simp only [writeAccepted_ecur, writeAccepted_bitPos b s _ hwf] at hbefore hfrom
  refine ⟨fun n hn => ?_, fun k hk => ?_⟩
  · rw [hbefore n (by omega), if_neg (Nat.ne_of_lt hn)]
  · cases k with
    | zero =>
      rw [Nat.add_zero, hbefore _ (Nat.lt_succ_self _), if_pos rfl, hclear _ le_rfl, Bool.false_or, List.getD_cons_zero]
    | succ k => rw [List.getD_cons_succ, ← hfrom k (Nat.lt_of_succ_lt_succ hk), Nat.add_assoc, Nat.add_comm 1 k]

/-- Bits that fill the block run one block cycle, with the last of them. -/
theorem acceptAll_fills (bs : List Bool) {s : State} (hB : s.eByte < s.par.B) (hs : s.memoriesOk)
    (hclear : s.clearBeyondCursor) (hlen : s.ecur + bs.length = 8 * s.par.B) :
    ∃ m : Memory, acceptAll bs s = .next (blockCycle { s with ebuf := m, eByte := s.par.B, eBit := 0 }) ∧ s.Holds bs m := by
  induction bs generalizing s with
  | nil => exact absurd hlen (Nat.ne_of_lt ((ecur_lt_iff s).2 hB))
  | cons b bs ih =>
    rw [List.length_cons] at hlen
    have hnext := accept_next b hB
    obtain ⟨-, ⟨hroom, hwrite⟩ | ⟨hfull, hcycle⟩⟩ := accept_cases hnext
    · have hB' : (writeAccepted b s).eByte < (writeAccepted b s).par.B := by
        rw [← ecur_lt_iff, writeAccepted_ecur, writeAccepted_par]
        exact hroom
      obtain ⟨m, hall, hholds⟩ := ih hB' (writeAccepted_memoriesOk b hB hs) (writeAccepted_clearBeyondCursor b hs hclear)
        (by rw [writeAccepted_ecur, writeAccepted_par]; omega)
      refine ⟨m, ?_, hholds.cons hs hclear⟩
      rw [acceptAll, exec_accept, hnext, hwrite, andThen_next, hall, writeAccepted_eq]
    · obtain rfl : bs = [] := List.length_eq_zero_iff.1 (by omega)
      refine ⟨_, ?_, (State.Holds.nil (writeAccepted b s)).cons hs hclear⟩
      rw [acceptAll, exec_accept, hnext, hcycle, andThen_next, acceptAll, ← writeAccepted_of_full b hfull]

/-- Settles O28: from an empty accumulator the bits held are the bits accepted. -/
theorem acceptedBitsFormTheBlockInOrder : Obligations.AcceptedBitsFormTheBlockInOrder := fun s bs hs hclear hempty hlen => by
  obtain ⟨m, hall, -, hbits⟩ :=
    acceptAll_fills bs hs.inv.cursors.1 hs.inv.memories hclear (by rw [hempty, hlen, Nat.zero_add])
  refine ⟨m, hall, ?_⟩
  rw [flat_block, ← hlen]
  refine List.ext_getElem (by simp) fun k _ hk => ?_
  specialize hbits k hk
  rw [hempty, Nat.zero_add] at hbits
  simpa [hk] using hbits

end Sys2Proof.Machine
end

section
/-! FIPSValidator (41_fips_validator.md): what FIPS and each sub-test answers for a block of B bytes, one equation each. -/

namespace Sys2Proof.Machine

variable {blk : Block} {s : State} (h : blk.length = s.par.B)
include h

theorem exec_fips_next : exec (.fips blk) s = .next (returnValue (.mask (fipsMask blk s)) (fipsCarry blk s)) :=
  show execFips blk s = _ from withBlock_next _ h

theorem exec_monobit_next :
    exec (.monobit blk) s = .next (returnValue (.failed (monobitFails s.par.FB (flat blk))) s) :=
  show execMonobit blk s = _ from withBlock_next _ h

theorem exec_poker_next : exec (.poker blk) s = .next (returnValue (.failed (pokerFails s.par.FB (flat blk))) s) :=
  show execPoker blk s = _ from withBlock_next _ h

theorem exec_runs_next :
    exec (.runs blk) s = .next (returnValue (.failed (runsFails s.par.FB (runsOf (flat blk)))) s) :=
  show execRuns blk s = _ from withBlock_next _ h

theorem exec_longrun_next :
    exec (.longrun blk) s = .next (returnValue (.failed (longrunFails s.par.FB (runsOf (flat blk)))) s) :=
  show execLongrun blk s = _ from withBlock_next _ h

theorem exec_contrun_next :
    exec (.contrun blk) s
      = .next (returnValue (.failed (contrunFails (blockExtremes blk) s.fcValid s.fcLen s.fcPos)) s) :=
  show execContrun blk s = _ from withBlock_next _ h

end Sys2Proof.Machine
end

section
/-! The flat bit sequence of a block (41_fips_validator.md R132) and the two statistics that count over it: the ones (R133)
and the nibbles (R134). -/

namespace Sys2Proof.Machine

/-! ### Lists by position -/

/-- Position `n*i + k` of a list of pieces of length `n` is position `k` of piece `i`. -/
theorem getElem?_flatMap_of_length {α β : Type} {f : α → List β} {n : Nat} (hf : ∀ a, (f a).length = n) (l : List α)
    (i : Nat) {k : Nat} (hk : k < n) : (l.flatMap f)[n * i + k]? = l[i]?.bind fun a => (f a)[k]? := by
  induction l generalizing i with
  | nil => simp
  | cons a l ih =>
    rw [List.flatMap_cons]
    cases i with
    | zero => rw [Nat.mul_zero, Nat.zero_add, List.getElem?_append_left (by rw [hf]; exact hk)]; rfl
    | succ i =>
      have hskip : n * (i + 1) + k = n + (n * i + k) := by rw [Nat.mul_succ]; omega
      rw [List.getElem?_append_right (by rw [hf, hskip]; omega), hf, hskip, Nat.add_sub_cancel_left, ih,
        List.getElem?_cons_succ]

theorem eq_map_range {α : Type} {l : List α} {n : Nat} {g : Nat → α} (hlen : l.length = n)
    (h : ∀ t < n, l[t]? = some (g t)) : l = (List.range n).map g :=
  List.ext_getElem? fun t => by
    by_cases ht : t < n
    · simp [h t ht, ht]
    · simp [hlen, ht]

theorem count_map_range {α : Type} [DecidableEq α] (n : Nat) (g : Nat → α) (a : α) :
    ((List.range n).map g).count a = ((Finset.range n).filter fun t => g t = a).card := by
  rw [List.count_eq_countP, List.countP_map, List.countP_eq_length_filter]
  rfl

/-! ### The flat sequence -/

theorem flat_getElem? (blk : Block) {i k : Nat} (hi : i < blk.length) (hk : k < 8) :
    (flat blk)[8 * i + k]? = some ((blk.getD i 0x00#8).getLsbD k) := by
  rw [flat, getElem?_flatMap_of_length byteBits_length blk i hk]
  simp [hi, hk, byteBits]

/-- Settles O30: the pieces of the flat sequence are the bytes' bits. -/
theorem flatSequenceIsTheBitsInOrder : Obligations.FlatSequenceIsTheBitsInOrder := fun blk =>
  ⟨flat_length blk, fun _ _ hi hk => flat_getElem? blk hi hk⟩

theorem flat_eq_map_range (blk : Block) :
    flat blk = (List.range (8 * blk.length)).map fun t => (blk.getD (t / 8) 0x00#8).getLsbD (t % 8) :=
  eq_map_range (flat_length blk) fun t ht => by
    rw [← flat_getElem? blk (by omega) (Nat.mod_lt t (by decide)), Nat.div_add_mod]

/-! ### MONOBIT -/

theorem onesCount_flat (blk : Block) :
    onesCount (flat blk)
      = ∑ t ∈ Finset.range (8 * blk.length), ((blk.getD (t / 8) 0x00#8).getLsbD (t % 8)).toNat := by
  rw [onesCount, flat_eq_map_range, count_map_range, Finset.card_filter]
  exact Finset.sum_congr rfl fun t _ => by cases (blk.getD (t / 8) 0x00#8).getLsbD (t % 8) <;> rfl

/-- Settles O31: the ones counted are the sum of the bits. -/
theorem monobitBoundsTheOnes : Obligations.MonobitBoundsTheOnes := fun blk s h => by
  refine ⟨_, exec_monobit_next h, ?_⟩
  rw [monobitFails, outside_iff, onesCount_flat, h]

/-! ### POKER -/

/-- The values of the two nibbles of a byte, low half first. -/
def byteNibbles (b : Byte) : List Nat := [b.toNat % 16, b.toNat / 16]

@[simp] theorem byteNibbles_length (b : Byte) : (byteNibbles b).length = 2 := rfl

theorem nibbles_byteBits (b : Byte) : nibbles (byteBits b) = byteNibbles b := by
  revert b; decide

theorem nibbles_byteBits_append (b : Byte) (s : List Bool) :
    nibbles (byteBits b ++ s) = byteNibbles b ++ nibbles s := by
  rw [← nibbles_byteBits]
  rfl

theorem nibbles_flat (blk : Block) : nibbles (flat blk) = blk.flatMap byteNibbles := by
  induction blk with
  | nil => rfl
  | cons b blk ih => rw [flat, List.flatMap_cons, nibbles_byteBits_append, ← flat, ih, List.flatMap_cons]

theorem nibbles_flat_eq_map_range (blk : Block) {nib : Nat → Nat}
    (h : ∀ i < blk.length, nib (2 * i) = (blk.getD i 0x00#8).toNat % 16 ∧ nib (2 * i + 1) = (blk.getD i 0x00#8).toNat / 16) :
    nibbles (flat blk) = (List.range (2 * blk.length)).map nib := by
  have hpiece : ∀ i k, k < 2 → (blk.flatMap byteNibbles)[2 * i + k]? = blk[i]?.bind fun b => (byteNibbles b)[k]? :=
    fun i _ hk => getElem?_flatMap_of_length byteNibbles_length blk i hk
  rw [nibbles_flat]
  refine eq_map_range (by simp [Nat.mul_comm]) fun j hj => ?_
  obtain ⟨i, rfl | rfl⟩ := Nat.even_or_odd' j
  · have hi : i < blk.length := by omega
    rw [(h i hi).1, ← Nat.add_zero (2 * i), hpiece i _ (by decide)]
    simp [hi, byteNibbles]
  · have hi : i < blk.length := by omega
    rw [(h i hi).2, hpiece i _ (by decide)]
    simp [hi, byteNibbles]

theorem pokerStat_eq (s : List Bool) : pokerStat s = ∑ w ∈ Finset.range 16, (nibbles s).count w ^ 2 := rfl

/-- Settles O32: the nibbles counted are `nib`, so each count is the frequency `f`. -/
theorem pokerBoundsTheSquares : Obligations.PokerBoundsTheSquares := fun blk s nib f h hnib hf => by
  have hstat : pokerStat (flat blk) = ∑ w ∈ Finset.range 16, f w ^ 2 := by
    rw [pokerStat_eq, nibbles_flat_eq_map_range blk (h ▸ hnib), h]
    exact Finset.sum_congr rfl fun w hw => by rw [count_map_range, hf w (Finset.mem_range.1 hw)]
  refine ⟨_, exec_poker_next h, ?_⟩
  rw [pokerFails, outside_iff, hstat]

end Sys2Proof.Machine
end

section
/-! The runs of a bit sequence (41_fips_validator.md R135). The list `runsFrom` and the predicate `IsRun` obey the same two
equations at the head of a sequence, for a run that starts at the first bit and for one that starts later; so they agree. -/

namespace Sys2Proof.Machine

/-! ### The list of runs at the head of a sequence -/

/-- What a bit in front of a sequence does to its list of runs: it is the only run, or it makes the first run one bit longer,
or it is a run of its own before the others. -/
theorem runsFrom_cons_cases (start : Nat) (b : Bool) (s : List Bool) :
    (s = [] ∧ runsFrom start (b :: s) = [⟨b, start, 1⟩]) ∨
    ∃ r rs, runsFrom (start + 1) s = r :: rs ∧ r.start = start + 1 ∧ s[0]? = some r.v ∧
      (r.v = b ∧ runsFrom start (b :: s) = ⟨b, start, r.len + 1⟩ :: rs ∨
        r.v ≠ b ∧ runsFrom start (b :: s) = ⟨b, start, 1⟩ :: r :: rs) := by
  induction s generalizing start b with
  | nil => exact .inl ⟨rfl, rfl⟩
  | cons c s ih =>
    have hhead : ∃ r rs, runsFrom (start + 1) (c :: s) = r :: rs ∧ r.start = start + 1 ∧ c = r.v := by
      obtain ⟨-, h⟩ | ⟨r, rs, -, -, -, ⟨-, h⟩ | ⟨-, h⟩⟩ := ih (start + 1) c <;> exact ⟨_, _, h, rfl, rfl⟩
    obtain ⟨r, rs, h, hstart, hv⟩ := hhead
    refine .inr ⟨r, rs, h, hstart, congrArg some hv, ?_⟩
    rw [runsFrom, h]
    by_cases hb : r.v = b
    · exact .inl ⟨hb, if_pos hb⟩
    · exact .inr ⟨hb, if_neg hb⟩

theorem runsFrom_sum_len (start : Nat) (s : List Bool) : ((runsFrom start s).map Run.len).sum = s.length := by
  induction s generalizing start with
  | nil => rfl
  | cons b s ih =>
    specialize ih (start + 1)
    obtain ⟨rfl, h⟩ | ⟨r, rs, hr, -, -, ⟨-, h⟩ | ⟨-, h⟩⟩ := runsFrom_cons_cases start b s
    · rw [h]; rfl
    all_goals
      rw [hr] at ih
      simp only [h, List.map_cons, List.sum_cons, List.length_cons] at ih ⊢
      omega

theorem runsFrom_sorted (start : Nat) (s : List Bool) : (runsFrom start s).Pairwise fun a b => a.start < b.start := by
  induction s generalizing start with
  | nil => exact .nil
  | cons b s ih =>
    specialize ih (start + 1)
    obtain ⟨-, h⟩ | ⟨r, rs, hr, -, -, hcase⟩ := runsFrom_cons_cases start b s
    · rw [h]; exact List.pairwise_singleton _ _
    · have hlater : ∀ q ∈ r :: rs, start < q.start := fun q hq => (runsFrom_inside _ s q (hr ▸ hq)).1
      rw [hr] at ih
      obtain ⟨-, h⟩ | ⟨-, h⟩ := hcase <;> rw [h]
      · exact .cons (fun q hq => hlater q (List.mem_cons_of_mem r hq)) ih.of_cons
      · exact .cons hlater ih

/-- The runs after the first start later. -/
theorem not_mem_rest {start : Nat} {s : List Bool} {r q : Run} {rs : List Run} (h : runsFrom start s = r :: rs)
    (hq : q.start ≤ r.start) : q ∉ rs := fun hmem =>
  Nat.not_lt.2 hq ((List.pairwise_cons.1 (h ▸ runsFrom_sorted start s)).1 q hmem)

/-- The run listed at the first bit: that bit alone, or the first run of the tail one bit longer. -/
theorem mem_runsFrom_cons_zero (start : Nat) (b v : Bool) (s : List Bool) (len : Nat) :
    ⟨v, start, len⟩ ∈ runsFrom start (b :: s) ↔
      v = b ∧ (len = 1 ∧ s[0]? ≠ some b ∨ ∃ l, len = l + 1 ∧ ⟨b, start + 1, l⟩ ∈ runsFrom (start + 1) s) := by
  obtain ⟨rfl, -⟩ | ⟨⟨c, _, m⟩, rs, hr, rfl, hhead, hcase⟩ := runsFrom_cons_cases start b s
  · simp [runsFrom]
  · have hfirst : ⟨v, start, len⟩ ∉ rs := not_mem_rest hr (Nat.le_succ start)
    have hsecond : ∀ l, ⟨b, start + 1, l⟩ ∉ rs := fun l => not_mem_rest hr le_rfl
    obtain ⟨rfl, h⟩ | ⟨hv, h⟩ := hcase
    · simp [h, hr, hhead, hfirst, hsecond]
    · simp [h, hr, hhead, hfirst, hsecond, hv, Ne.symm hv]

/-- A run listed later: a run of the tail, but not one that the first bit belongs to. -/
theorem mem_runsFrom_cons_succ (start : Nat) (b v : Bool) (s : List Bool) (n len : Nat) :
    ⟨v, start + (n + 1), len⟩ ∈ runsFrom start (b :: s) ↔
      ⟨v, start + 1 + n, len⟩ ∈ runsFrom (start + 1) s ∧ (n = 0 → b ≠ v) := by
  rw [show start + (n + 1) = start + 1 + n by omega]
  have hne : start + 1 + n ≠ start := by omega
  obtain ⟨rfl, -⟩ | ⟨⟨c, _, m⟩, rs, hr, rfl, -, hcase⟩ := runsFrom_cons_cases start b s
  · simp [runsFrom, hne]
  · have hlater : ⟨v, start + 1 + n, len⟩ ∈ rs → n ≠ 0 := fun hq hn => not_mem_rest hr (by simp [hn]) hq
    obtain ⟨rfl, h⟩ | ⟨hv, h⟩ := hcase
    · rw [h, hr]; grind
    · rw [h, hr]; grind

/-! ### The maximal stretches at the head of a sequence -/

/-- A sequence does not go on with `b` iff it is empty or goes on with the other value. -/
theorem getElem?_zero_ne_iff (s : List Bool) (b : Bool) : s[0]? ≠ some b ↔ 0 = s.length ∨ s[0]? = some (!b) := by
  cases s with
  | nil => simp
  | cons c s => cases b <;> cases c <;> simp

/-- A run at the first bit: that bit alone, or a run at the first bit of the tail one bit longer. -/
theorem isRun_cons_zero (b v : Bool) (s : List Bool) (len : Nat) :
    IsRun (b :: s) v 0 len ↔ v = b ∧ (len = 1 ∧ s[0]? ≠ some b ∨ ∃ l, len = l + 1 ∧ IsRun s b 0 l) := by
  cases len with
  | zero => simp [IsRun]
  | succ l =>
    have hbits : (∀ j < l + 1, (b :: s)[j]? = some v) ↔ v = b ∧ ∀ j < l, s[j]? = some b := by
      rw [Nat.forall_lt_succ_left, List.getElem?_cons_zero, Option.some_inj, eq_comm]
      exact and_congr_right fun hv => by simp [hv]
    rw [getElem?_zero_ne_iff]
    simp only [IsRun, Nat.zero_add, hbits, List.length_cons, List.getElem?_cons_succ]
    cases l with
    | zero => grind
    | succ l => grind

/-- A later run: a run of the tail that the first bit does not make longer. -/
theorem isRun_cons_succ (b v : Bool) (s : List Bool) (n len : Nat) :
    IsRun (b :: s) v (n + 1) len ↔ IsRun s v n len ∧ (n = 0 → b ≠ v) := by
  have hbits : ∀ j, (b :: s)[n + 1 + j]? = s[n + j]? := fun j => by
    rw [show n + 1 + j = n + j + 1 by omega, List.getElem?_cons_succ]
  have hend : n + 1 + len = s.length + 1 ↔ n + len = s.length := by omega
  have hstart : (b :: s)[n + 1 - 1]? = some (!v) ↔ (n = 0 ∨ s[n - 1]? = some (!v)) ∧ (n = 0 → b ≠ v) := by
    cases n with
    | zero => simp [Bool.eq_not]
    | succ n => simp
  simp only [IsRun, hbits, hend, hstart, List.length_cons, Nat.succ_ne_zero, false_or]
  exact ⟨fun ⟨hlen, hsame, ⟨hbefore, hv⟩, hafter⟩ => ⟨⟨hlen, hsame, hbefore, hafter⟩, hv⟩,
    fun ⟨⟨hlen, hsame, hbefore, hafter⟩, hv⟩ => ⟨hlen, hsame, ⟨hbefore, hv⟩, hafter⟩⟩

/-! ### The list of runs is the maximal stretches -/

theorem mem_runsFrom_iff (start : Nat) (s : List Bool) (v : Bool) (n len : Nat) :
    ⟨v, start + n, len⟩ ∈ runsFrom start s ↔ IsRun s v n len := by
  induction s generalizing start v n len with
  | nil =>
    have hnone : ¬ IsRun [] v n len := fun ⟨hlen, hbits, _⟩ => by simpa using hbits 0 hlen
    simp [runsFrom, hnone]
  | cons b s ih =>
    cases n with
    | zero =>
      have htail : ∀ l, ⟨b, start + 1, l⟩ ∈ runsFrom (start + 1) s ↔ IsRun s b 0 l := fun l => ih (start + 1) b 0 l
      simp only [Nat.add_zero, mem_runsFrom_cons_zero, isRun_cons_zero, htail]
    | succ n => rw [mem_runsFrom_cons_succ, isRun_cons_succ, ih]

theorem mem_runsOf_iff {s : List Bool} {v : Bool} {start len : Nat} :
    ⟨v, start, len⟩ ∈ runsOf s ↔ IsRun s v start len := by
  rw [runsOf, ← mem_runsFrom_iff 0, Nat.zero_add]

/-- Settles O33, by induction on the sequence. -/
theorem runsAreTheMaximalStretches : Obligations.RunsAreTheMaximalStretches := fun s =>
  ⟨fun _ _ _ => mem_runsOf_iff, runsFrom_sorted 0 s, runsFrom_sum_len 0 s⟩

/-! ### RUNS -/

theorem bucket_eq (rs : List Run) (v : Bool) (k : Fin 6) :
    bucket rs v k = (rs.filter fun r => r.v = v ∧ min r.len 6 = k.val + 1).length := by
  rw [bucket, List.countP_eq_length_filter]
  congr 2
  ext r
  simp only [Bool.decide_and, beq_eq_decide]

theorem runsFails_iff (fb : Bounds) (rs : List Run) :
    runsFails fb rs = true ↔ ∃ v k, ¬ (fb.runMin[k] ≤ bucket rs v k ∧ bucket rs v k ≤ fb.runMax[k]) := by
  simp only [runsFails, List.any_eq_true, outside_iff, List.mem_finRange, true_and]
  exact exists_congr fun v => and_iff_right (by cases v <;> decide)

/-- Settles O34: each bucket of the test is the number of runs counted in it. -/
theorem runsTestBoundsEveryBucket : Obligations.RunsTestBoundsEveryBucket := fun blk s h => by
  refine ⟨_, exec_runs_next h, ?_⟩
  simp only [runsFails_iff, bucket_eq]

/-! ### LONGRUN -/

theorem longrunFails_runsOf_iff (fb : Bounds) (s : List Bool) :
    longrunFails fb (runsOf s) = true ↔ ∃ v start len, IsRun s v start len ∧ fb.longrunMax < len := by
  simp only [longrunFails, List.any_eq_true, decide_eq_true_eq, ← mem_runsOf_iff]
  exact ⟨fun ⟨⟨v, start, len⟩, h⟩ => ⟨v, start, len, h⟩, fun ⟨v, start, len, h⟩ => ⟨⟨v, start, len⟩, h⟩⟩

/-- Settles O35: the runs examined are the maximal stretches. -/
theorem longrunFindsAnyLongRun : Obligations.LongrunFindsAnyLongRun := fun _ _ h =>
  ⟨_, exec_longrun_next h, longrunFails_runsOf_iff _ _⟩

end Sys2Proof.Machine
end

section
/-! The run extremes, CONTRUN and the battery (41_fips_validator.md R137 to R139). -/

namespace Sys2Proof.Machine

/-! ### The longest run of a value and the first of that length -/

@[simp] theorem extremes_len_get (rs : List Run) (v : Bool) : (extremes rs).len.get v = extLen rs v := by cases v <;> rfl

@[simp] theorem extremes_pos_get (rs : List Run) (v : Bool) : (extremes rs).pos.get v = extPos rs v := by cases v <;> rfl

theorem extLen_cons (r : Run) (rs : List Run) (v : Bool) :
    extLen (r :: rs) v = if r.v = v then max r.len (extLen rs v) else extLen rs v := rfl

theorem le_extLen {rs : List Run} {r : Run} (h : r ∈ rs) : r.len ≤ extLen rs r.v := by
  induction rs with
  | nil => exact absurd h List.not_mem_nil
  | cons q rs ih =>
    rw [extLen_cons]
    rcases List.mem_cons.1 h with rfl | h
    · rw [if_pos rfl]
      exact Nat.le_max_left _ _
    · have hrest := ih h
      split <;> omega

theorem extLen_eq_zero {rs : List Run} {v : Bool} (h : ∀ r ∈ rs, r.v ≠ v) : extLen rs v = 0 := by
  induction rs with
  | nil => rfl
  | cons r rs ih => rw [extLen_cons, if_neg (h r List.mem_cons_self), ih fun q hq => h q (List.mem_cons_of_mem r hq)]

theorem extPos_eq_zero {rs : List Run} {v : Bool} (h : ∀ r ∈ rs, r.v ≠ v) : extPos rs v = 0 := by
  have hnone : rs.find? (fun r => r.v == v && r.len == extLen rs v) = none :=
    List.find?_eq_none.2 fun r hr => by simp [h r hr]
  rw [extPos, hnone]

theorem extLen_attained {rs : List Run} {v : Bool} (h : ∃ r ∈ rs, r.v = v) :
    ∃ r ∈ rs, r.v = v ∧ r.len = extLen rs v := by
  induction rs with
  | nil => simp at h
  | cons q rs ih =>
    rw [extLen_cons]
    by_cases hrest : ∃ r ∈ rs, r.v = v
    · obtain ⟨r, hr, hv, hlen⟩ := ih hrest
      by_cases hq : q.v = v ∧ extLen rs v ≤ q.len
      · exact ⟨q, List.mem_cons_self, hq.1, by rw [if_pos hq.1, max_eq_left hq.2]⟩
      · exact ⟨r, List.mem_cons_of_mem q hr, hv, by split <;> grind⟩
    · have hzero : extLen rs v = 0 := extLen_eq_zero fun r hr hv => hrest ⟨r, hr, hv⟩
      have hq : q.v = v := by simpa [hrest] using h
      exact ⟨q, List.mem_cons_self, hq, by simp [hq, hzero]⟩

/-- The extremes of a value that has a run are those of the first of its longest runs. -/
theorem extPos_first {rs : List Run} {v : Bool} (hsorted : rs.Pairwise fun a b => a.start < b.start)
    (h : ∃ r ∈ rs, r.v = v) :
    ⟨v, extPos rs v, extLen rs v⟩ ∈ rs ∧ ∀ r ∈ rs, r.v = v → r.len = extLen rs v → extPos rs v ≤ r.start := by
  obtain ⟨q, hq, hqv, hqlen⟩ := extLen_attained h
  cases hfind : rs.find? fun r => r.v == v && r.len == extLen rs v with
  | none => exact absurd (List.find?_eq_none.1 hfind q hq) (by simp [hqv, hqlen])
  | some r =>
    have hpos : extPos rs v = r.start := by rw [extPos, hfind]
    obtain ⟨hr, before, after, hsplit, hbefore⟩ := List.find?_eq_some_iff_append.1 hfind
    obtain ⟨hv, hlen⟩ : r.v = v ∧ r.len = extLen rs v := by simpa using hr
    rw [hpos]
    refine ⟨?_, fun p hp hpv hplen => ?_⟩
    · rw [← hlen, ← hv]
      exact List.mem_of_find?_eq_some hfind
    · have hnot : p ∉ before := fun hmem => absurd (hbefore p hmem) (by simp [hpv, hplen])
      rw [hsplit, List.mem_append, or_iff_right hnot, List.mem_cons] at hp
      obtain rfl | hafter := hp
      · exact le_rfl
      · rw [hsplit] at hsorted
        exact Nat.le_of_lt (List.rel_of_pairwise_cons (List.pairwise_append.1 hsorted).2.1 hafter)

theorem blockExtremes_isExtremes (blk : Block) : IsExtremes (flat blk) (blockExtremes blk) := by
  intro v
  simp only [blockExtremes, extremes_len_get, extremes_pos_get, ← mem_runsOf_iff]
  by_cases h : ∃ r ∈ runsOf (flat blk), r.v = v
  · obtain ⟨hmem, hfirst⟩ := extPos_first (runsFrom_sorted 0 _) h
    exact .inr ⟨hmem, fun start len hr => ⟨le_extLen hr, hfirst _ hr rfl⟩⟩
  · have hnone : ∀ r ∈ runsOf (flat blk), r.v ≠ v := fun r hr hv => h ⟨r, hr, hv⟩
    exact .inl ⟨fun start len hr => hnone _ hr rfl, extLen_eq_zero hnone, extPos_eq_zero hnone⟩

/-- A block of at least one byte has a run, so some value has a longest one. -/
theorem exists_blockExtremes_len_pos {blk : Block} (h : 1 ≤ blk.length) : ∃ v, 0 < (blockExtremes blk).len.get v := by
  have hsum : ((runsOf (flat blk)).map Run.len).sum = 8 * blk.length := by rw [runsOf, runsFrom_sum_len, flat_length]
  cases hruns : runsOf (flat blk) with
  | nil =>
    rw [hruns, List.map_nil, List.sum_nil] at hsum
    omega
  | cons r rs =>
    have hr : r ∈ runsOf (flat blk) := hruns ▸ List.mem_cons_self
    have hlen : 0 < r.len := (mem_runsOf_iff.1 hr).1
    exact ⟨r.v, by rw [blockExtremes, extremes_len_get]; exact Nat.lt_of_lt_of_le hlen (le_extLen hr)⟩

/-! ### CONTRUN -/

theorem contrunFails_iff (ext : Extremes) (valid : Bool) (len pos : PerBit) :
    contrunFails ext valid len pos = true ↔
      valid = true ∧ ∃ v, 0 < ext.len.get v ∧ ext.len.get v = len.get v ∧ ext.pos.get v = pos.get v := by
  simp [contrunFails, and_assoc]

/-- Settles O36: the test compares the block's own extremes. -/
theorem contrunComparesTheExtremes : Obligations.ContrunComparesTheExtremes := fun blk _ h =>
  ⟨blockExtremes blk, _, blockExtremes_isExtremes blk, exec_contrun_next h, contrunFails_iff _ _ _ _⟩

/-! ### FIPS -/

/-- Settles O29: each bit of the mask is the verdict of its sub-test, and the carried extremes are the block's. -/
theorem fipsGivesTheFiveVerdicts : Obligations.FipsGivesTheFiveVerdicts := fun blk s h => by
  refine ⟨fipsMask blk s, blockExtremes blk, blockExtremes_isExtremes blk, exec_fips_next h, ?_⟩
  simp only [fipsMask, packMask_mono, packMask_pok, packMask_runs, packMask_long, packMask_cont]
  exact ⟨exec_monobit_next h, exec_poker_next h, exec_runs_next h, exec_longrun_next h, exec_contrun_next h⟩

/-- Bit 4 of the mask is the verdict of the continuous-run test. -/
theorem fipsMask_cont_iff (blk : Block) (s : State) :
    (fipsMask blk s).getLsbD 4 = true ↔ s.fcValid = true ∧ ∃ v, 0 < (blockExtremes blk).len.get v ∧
      (blockExtremes blk).len.get v = s.fcLen.get v ∧ (blockExtremes blk).pos.get v = s.fcPos.get v := by
  rw [fipsMask, packMask_cont, contrunFails_iff]

/-- Settles O37: the second call compares the extremes of the block with themselves. -/
theorem repeatedBlockFailsContrun : Obligations.RepeatedBlockFailsContrun := fun blk s h hB => by
  refine ⟨_, _, _, _, exec_fips_next h, rfl, exec_fips_next h, rfl, fun hfirst => ?_, ?_⟩
  · rw [Bool.eq_false_iff, Ne, fipsMask_cont_iff, hfirst]
    exact fun ⟨hvalid, _⟩ => Bool.false_ne_true hvalid
  · obtain ⟨v, hv⟩ := exists_blockExtremes_len_pos (h ▸ hB)
    exact (fipsMask_cont_iff _ _).2 ⟨rfl, v, hv, rfl, rfl⟩

end Sys2Proof.Machine
end

section
/-! OutputEncoder (42_output_encoder.md R162 to R168): what ENCODE, WHITEN, ENCRYPT, KEYDERIVE and UNPRIMED do, one equation for
each way they go. -/

namespace Sys2Proof.Machine

/-! ### The operations on a Byte^B -/

section
variable {blk : Block} {s : State}

theorem exec_encode_next (h : blk.length = s.par.B) : exec (.encode blk) s = .next (encodeBlock blk s) :=
  show execEncode blk s = _ from withBlock_next _ h

theorem exec_whiten_next (h : blk.length = s.par.B) : exec (.whiten blk) s = .next (whiten blk s) :=
  show execWhiten blk s = _ from withBlock_next _ h

theorem exec_encrypt_next (h : blk.length = s.par.B) : exec (.encrypt blk) s = .next (encrypt blk s) :=
  show execEncrypt blk s = _ from withBlock_next _ h

theorem exec_unprimed_next (h : blk.length = s.par.B) : exec (.unprimed blk) s = .next (unprimed blk s) :=
  show execUnprimed blk s = _ from withBlock_next _ h

theorem withBlock_congr {f g : Block → State → State} (h : f blk s = g blk s) : withBlock blk s f = withBlock blk s g := by
  simp only [withBlock, h]

/-! ### The choice of the operation by the mode, `primed`, `prev_valid` and the policy -/

theorem encodeBlock_of_whitening (h : s.cfgEncrypt = false) : encodeBlock blk s = whiten blk s :=
  if_neg (Bool.eq_false_iff.1 h)

theorem encodeBlock_of_encrypted (h : s.cfgEncrypt = true) : encodeBlock blk s = encrypt blk s := if_pos h

theorem encrypt_of_primed (h : s.primed = true) : encrypt blk s = encryptPrimed blk s := if_pos h

theorem encrypt_of_unprimed (h : s.primed = false) : encrypt blk s = unprimed blk s := if_neg (Bool.eq_false_iff.1 h)

/-- The first passing block only seeds `prev` (R164). -/
theorem whiten_of_unseeded (h : s.prevValid = false) :
    whiten blk s = { s with prev := s.prev.writeBlock blk, prevValid := true } :=
  if_neg (Bool.eq_false_iff.1 h)

/-- A later one is emitted XORed with `prev` and counted (R163). -/
theorem whiten_of_seeded (h : s.prevValid = true) :
    whiten blk s = { s with
      prev := s.prev.writeBlock blk, cntEmit := satInc s.cntEmit,
      trace := { s.trace with out := s.trace.out ++ xorBlock blk (s.prev.block s.par.B) } } :=
  if_pos h

theorem unprimed_of_drop (h : s.cfgPolicy = false) : unprimed blk s = raise .keyNotReady s :=
  if_neg (Bool.eq_false_iff.1 h)

theorem unprimed_of_pass (h : s.cfgPolicy = true) : unprimed blk s = countEmit (emit blk (raise .keyNotReady s)) :=
  if_pos h

end

/-- Settles O40: the operand test is the same for the three operations, and the choice after it is by the mode. -/
theorem encodeDispatchesOnTheMode : Obligations.EncodeDispatchesOnTheMode := fun _ _ =>
  ⟨fun h => withBlock_congr (encodeBlock_of_whitening h), fun h => withBlock_congr (encodeBlock_of_encrypted h),
    fun h => ⟨_, exec_encode_next h⟩⟩

/-- Settles O43: the key is the hash of the pool's bytes, and nothing but the trace and the count is written. -/
theorem encryptUsesTheHashOfThePool : Obligations.EncryptUsesTheHashOfThePool := fun blk s => by
  refine ⟨fun hlen hprimed => ⟨poolKey s, _, rfl, poolKey_length s, rfl, cipherOf_length _ _ _, ?_⟩, fun hprimed => ?_⟩
  · rw [exec_encrypt_next hlen, encrypt_of_primed hprimed]
    rfl
  · exact withBlock_congr (encrypt_of_unprimed hprimed)

/-- Settles O44: the key returned is the one of `poolKey`. -/
theorem keyDeriveHashesTheWholePool : Obligations.KeyDeriveHashesTheWholePool := fun s =>
  ⟨poolKey s, rfl, poolKey_length s, rfl⟩

/-- Settles O45, policy by policy. -/
theorem unprimedDropsOrPasses : Obligations.UnprimedDropsOrPasses := fun blk s hlen => by
  refine ⟨fun hdrop => ?_, fun hpass => ?_⟩
  · rw [exec_unprimed_next hlen, unprimed_of_drop hdrop]
    rfl
  · rw [exec_unprimed_next hlen, unprimed_of_pass hpass]
    rfl

/-! ### The XOR of two blocks (R163) -/

theorem xorBlock_getD {a b : Block} {i : Nat} (ha : i < a.length) (hb : i < b.length) :
    (xorBlock a b).getD i 0x00#8 = a.getD i 0x00#8 ^^^ b.getD i 0x00#8 := by
  simp [xorBlock, ha, hb]

/-- XOR with a block undoes itself. -/
theorem xorBlock_xorBlock {a b : Block} (h : a.length = b.length) : xorBlock (xorBlock a b) b = a := by
  refine List.ext_getElem (by simp [h]) fun i _ _ => ?_
  simp [xorBlock]

/-- Settles O41, with the memory that holds the block in its first B bytes. -/
theorem whitenSeedsThenEmitsTheXor : Obligations.WhitenSeedsThenEmitsTheXor := fun blk s hwf hlen => by
  refine ⟨s.prev.writeBlock blk, fun i => ?_, fun hunseeded => ?_, fun hseeded => ?_⟩
  · rw [Memory.read_writeBlock blk i hwf, hlen]
  · rw [exec_whiten_next hlen, whiten_of_unseeded hunseeded]
  · refine ⟨xorBlock blk (s.prev.block s.par.B), by simp [hlen], fun i hi => ?_, ?_⟩
    · rw [xorBlock_getD (hlen ▸ hi) (by simpa using hi), Memory.block_getD _ _ i hi]
    · rw [exec_whiten_next hlen, whiten_of_seeded hseeded]

/-- Settles O42: what is emitted is the XOR with `prev`. -/
theorem whitenedOutputRecoversTheBlock : Obligations.WhitenedOutputRecoversTheBlock := fun blk s hlen hseeded => by
  refine ⟨_, exec_whiten_next hlen, ?_⟩
  rw [whiten_of_seeded hseeded, List.drop_left]
  exact xorBlock_xorBlock (by rw [hlen, Memory.block_length])

end Sys2Proof.Machine
end

section
/-! The block cycle of a failing and of a passing block (42_output_encoder.md R160, R161, R170), and the output stream in
whitening mode (R171). -/

namespace Sys2Proof.Machine

/-! ### The verdict and the clear -/

/-- The verdict of FIPS on a Byte^B is its mask. -/
theorem fips_iff {blk : Block} {s : State} (h : blk.length = s.par.B) (mask : Mask) :
    Fips blk s mask ↔ mask = fipsMask blk s := by
  simp [Fips, exec_fips_next h, eq_comm]

theorem fips_ebuf_iff (s : State) (mask : Mask) :
    Fips (s.ebuf.block s.par.B) s mask ↔ mask = fipsMask (s.ebuf.block s.par.B) s :=
  fips_iff (Memory.block_length _ _) mask

/-- The clear zeroes the first `n` bytes and leaves the others (R170). -/
theorem Memory.read_writeBlock_zero {m : Memory} (hwf : m.wf = true) (n i : Nat) :
    (m.writeBlock (List.replicate n 0x00#8)).read i = if i < n then 0x00#8 else m.read i := by
  rw [Memory.read_writeBlock _ i hwf, List.length_replicate]
  by_cases hi : i < n <;> simp [hi]

/-- Settles O38: the first of the ways a block cycle ends. -/
theorem failingBlockIsDiscarded : Obligations.FailingBlockIsDiscarded := fun s mask hwf hfips hmask => by
  obtain rfl := (fips_ebuf_iff s mask).1 hfips
  refine ⟨_, blockExtremes (s.ebuf.block s.par.B), blockExtremes_isExtremes _, ?_,
    Memory.read_writeBlock_zero hwf s.par.B⟩
  obtain ⟨-, h⟩ | ⟨hpass, -⟩ | ⟨hpass, -⟩ | ⟨hpass, -⟩ | ⟨hpass, -⟩ | ⟨hpass, -⟩ := blockCycle_cases s
  · rw [exec_blockCycle, h]
    rfl
  all_goals exact absurd hpass hmask

/-- ENCODE writes neither `ebuf` nor its cursor, so the clear after it is a write of `ebuf` as it was before (R160, R170). -/
theorem clearBlock_encodeBlock (blk : Block) (s : State) : clearBlock (encodeBlock blk s) =
    { encodeBlock blk s with ebuf := s.ebuf.writeBlock (List.replicate s.par.B 0x00#8), eByte := 0, eBit := 0 } := by
  rcases encodeBlock_cases blk s with ⟨-, -, h⟩ | ⟨-, -, h⟩ | ⟨-, -, h⟩ | ⟨-, -, -, h⟩ | ⟨-, -, -, h⟩
  all_goals rw [h]; rfl

/-- A passing block is encoded in the state with verdict 0 recorded and the carried state updated. -/
theorem judged_of_pass {s : State} (h : fipsMask (s.ebuf.block s.par.B) s = 0#5) :
    judged s = { s with
      lastMask := 0#5, lastValid := true, cntBlocks := satInc s.cntBlocks, fcValid := true,
      fcLen := (blockExtremes (s.ebuf.block s.par.B)).len, fcPos := (blockExtremes (s.ebuf.block s.par.B)).pos } := by
  rw [judged, h, recordVerdict, BitVec.or_zero]
  rfl

/-- Settles O39: the verdict is recorded, then the block encoded, then `ebuf` cleared. -/
theorem passingBlockIsEncoded : Obligations.PassingBlockIsEncoded := fun s hwf hfips => by
  have hmask := ((fips_ebuf_iff s 0#5).1 hfips).symm
  refine ⟨_, blockExtremes (s.ebuf.block s.par.B), encodeBlock (s.ebuf.block s.par.B) (judged s),
    blockExtremes_isExtremes _, ?_, ?_, Memory.read_writeBlock_zero hwf s.par.B⟩
  · rw [← judged_of_pass hmask]
    exact exec_encode_next (Memory.block_length _ _)
  · rw [exec_blockCycle, blockCycle_pass hmask, clearBlock_encodeBlock]
    rfl

/-! ### The output stream in whitening mode (R171) -/

/-- In whitening mode a block cycle emits nothing and counts nothing, or emits B bytes and counts one block. -/
theorem blockCycle_out_of_whitening {s : State} (hwhite : s.cfgEncrypt = false) :
    (blockCycle s).trace.out = s.trace.out ∧ (blockCycle s).cntEmit = s.cntEmit ∨
      (blockCycle s).trace.out.length = s.trace.out.length + s.par.B ∧ (blockCycle s).cntEmit = satInc s.cntEmit := by
  rcases blockCycle_cases s with
    ⟨-, h⟩ | ⟨-, -, -, h⟩ | ⟨-, -, -, h⟩ | ⟨-, hm, -, h⟩ | ⟨-, hm, -, -, h⟩ | ⟨-, hm, -, -, h⟩
  · exact .inl (by simp [h])
  · exact .inl (by simp [h])
  · exact .inr (by simp [h])
  all_goals exact absurd (hwhite.symm.trans hm) Bool.false_ne_true

theorem blockCycle_outputInBlocks {s : State} (hs : s.outputInBlocks) : (blockCycle s).outputInBlocks := by
  intro hwhite hlt
  rw [blockCycle_cfgEncrypt] at hwhite
  rw [blockCycle_par]
  obtain ⟨hout, hcnt⟩ | ⟨hout, hcnt⟩ := blockCycle_out_of_whitening hwhite <;> rw [hcnt] at hlt ⊢
  · rw [hout]
    exact hs hwhite hlt
  · have hroom : s.cntEmit.toNat < 2 ^ 32 - 1 := Nat.lt_of_le_of_lt (le_satInc _) hlt
    rw [hout, hs hwhite hroom, satInc_toNat_of_lt hroom, Nat.mul_succ]

/-- Settles O59: outside the block cycle nothing is emitted or counted. -/
theorem stepKeepsOutputInWholeBlocks : Obligations.StepKeepsOutputInWholeBlocks := fun _ _ hs h =>
  step_keeps_of_blockCycle State.outputInBlocks (fun _ _ hs => hs) outputInBlocks_resetOf
    (fun _ => blockCycle_outputInBlocks) hs h

end Sys2Proof.Machine
end

section
/-! The calls of the hash and the cipher (42_output_encoder.md R165, R166, R169): only a primed pool in encrypted mode makes them,
and nothing else of the pool reaches the outside. -/

namespace Sys2Proof.Machine

/-! ### Calls are made on a primed pool in encrypted mode alone (R165, R166) -/

/-- Between `s` and `t` a core was called. -/
def State.Called (s t : State) : Prop :=
  t.trace.hashCalls ≠ s.trace.hashCalls ∨ t.trace.cipherCalls ≠ s.trace.cipherCalls

theorem not_called_iff (s t : State) :
    ¬ s.Called t ↔ t.trace.hashCalls = s.trace.hashCalls ∧ t.trace.cipherCalls = s.trace.cipherCalls := by
  simp [State.Called]

theorem not_called_of_trace {s t : State} (h : t.trace = s.trace) : ¬ s.Called t := by
  rw [not_called_iff, h]
  exact ⟨rfl, rfl⟩

/-- A call on the way from `s` over `t` to `u` is made before or after `t`. -/
theorem State.Called.split {s t u : State} (h : s.Called u) : s.Called t ∨ t.Called u := by
  by_contra hnone
  obtain ⟨hbefore, hafter⟩ := not_or.1 hnone
  obtain ⟨hhash, hcipher⟩ := (not_called_iff s t).1 hbefore
  obtain ⟨hhash', hcipher'⟩ := (not_called_iff t u).1 hafter
  exact (not_called_iff s u).2 ⟨hhash'.trans hhash, hcipher'.trans hcipher⟩ h

theorem blockCycle_called {s : State} (h : s.Called (blockCycle s)) : s.cfgEncrypt = true ∧ s.primed = true := by
  rcases blockCycle_cases s with
    ⟨-, heq⟩ | ⟨-, -, -, heq⟩ | ⟨-, -, -, heq⟩ | ⟨-, hm, hp, -⟩ | ⟨-, -, -, -, heq⟩ | ⟨-, -, -, -, heq⟩
  case inr.inr.inr.inl => exact ⟨hm, hp⟩
  all_goals
    rw [heq] at h
    exact absurd h ((not_called_iff _ _).2 ⟨rfl, rfl⟩)

theorem accept_called {bit : Bool} {s t : State} (h : accept bit s = .next t) (hcall : s.Called t) :
    s.cfgEncrypt = true ∧ s.primed = true := by
  have hwrite : ¬ s.Called (writeAccepted bit s) := not_called_of_trace (writeAccepted_trace bit s)
  obtain ⟨-, ⟨-, rfl⟩ | ⟨-, rfl⟩⟩ := accept_cases h
  · exact absurd hcall hwrite
  · simpa using blockCycle_called (hcall.split.resolve_left hwrite)

theorem discard_not_called {bit : Bool} {s t : State} (h : discard bit s = .next t) : ¬ s.Called t := by
  obtain ⟨-, rfl⟩ := discard_cases h
  exact not_called_of_trace (writeDiscarded_trace bit s)

/-- `t` keeps what is sticky in `s`, and a core called between them was called in encrypted mode, on a pool that is primed in
`t`. -/
structure State.KeyedBy (s t : State) : Prop where
  sticky : s.Sticky t
  called : s.Called t → s.cfgEncrypt = true ∧ t.primed = true

theorem State.KeyedBy.refl (s : State) : s.KeyedBy s := ⟨State.Sticky.refl s, fun h => absurd h (not_called_of_trace rfl)⟩

theorem State.KeyedBy.trans {s t u : State} (hst : s.KeyedBy t) (htu : t.KeyedBy u) : s.KeyedBy u := by
  refine ⟨hst.sticky.trans htu.sticky, fun hcall => ?_⟩
  rcases hcall.split with hcall | hcall
  · obtain ⟨hmode, hprimed⟩ := hst.called hcall
    exact ⟨hmode, htu.sticky.primed hprimed⟩
  · obtain ⟨hmode, hprimed⟩ := htu.called hcall
    exact ⟨hst.sticky.cfgEncrypt ▸ hmode, hprimed⟩

theorem keyedBy_accept {bit : Bool} {s t : State} (h : accept bit s = .next t) : s.KeyedBy t := by
  refine ⟨sticky_accept h, fun hcall => ?_⟩
  obtain ⟨hmode, hprimed⟩ := accept_called h hcall
  exact ⟨hmode, (sticky_accept h).primed hprimed⟩

theorem keyedBy_discard {bit : Bool} {s t : State} (h : discard bit s = .next t) : s.KeyedBy t :=
  ⟨sticky_discard h, fun hcall => absurd hcall (discard_not_called h)⟩

theorem keyedBy_respond (d : Word) (e : Bool) (s : State) : s.KeyedBy (respond d e s) :=
  ⟨sticky_respond d e s, fun hcall => absurd hcall ((not_called_iff _ _).2 ⟨rfl, rfl⟩)⟩

theorem push_keyedBy {b : Byte} {s t : State} (h : execPush b s = .next t) : s.KeyedBy t :=
  push_keeps_bits s.KeyedBy (fun _ _ _ hs h => hs.trans (keyedBy_accept h)) (fun _ _ _ hs h => hs.trans (keyedBy_discard h))
    (fun _ _ _ hs => hs.trans (keyedBy_respond _ _ _)) (State.KeyedBy.refl s) h

theorem command_called {i : Instr} {s t : State} (hi : i.isCommand = true) (h : exec i s = .next t) (hcall : s.Called t) :
    s.cfgEncrypt = true ∧ t.primed = true := by
  cases i with
  | push b => exact (push_keyedBy h).called hcall
  | nop arg | rd a | reserved arg =>
    obtain rfl := Host.Outcome.next.inj h
    exact absurd hcall ((not_called_iff _ _).2 ⟨rfl, rfl⟩)
  | _ => exact absurd hi Bool.false_ne_true

/-- The block cycle empties the accumulator (R170). -/
@[simp] theorem blockCycle_ecur (s : State) : (blockCycle s).ecur = 0 := by simp [State.ecur, cursorBits]

/-- Settles O51: the only calls are those of a block cycle. -/
theorem noKeyBeforeThePoolIsPrimed : Obligations.NoKeyBeforeThePoolIsPrimed := by
  refine ⟨fun s => ⟨_, exec_blockCycle s, blockCycle_ecur s, blockCycle_cntBlocks s, blockCycle_lastValid s, ?_,
    blockCycle_primed s, blockCycle_called⟩, fun bit s hB => ?_, fun bit s t h => ?_, fun i s t => command_called⟩
  · rw [blockCycle_accMask, blockCycle_lastMask]
  · have hnext := accept_next bit hB
    obtain ⟨-, -, -, hprimed⟩ := accept_pool hnext
    exact ⟨_, hnext, hprimed, accept_called hnext⟩
  · exact (not_called_iff s t).1 (discard_not_called h)

/-! ### Operations on another pool (R169) -/

/-- The state with another pool in the place of its own. -/
def State.onPool (m : Memory) (s : State) : State := { s with pool := m }

/-- A trace with the one call of the cores and the one emission that a pool image `u` and a block `blk` give from the state `s`. -/
def State.callTrace (s : State) (u blk : Block) (tr : Trace) : Trace :=
  { tr with
    out := s.trace.out ++ cipherOf s.par (hashOf s.par u) blk
    hashCalls := s.trace.hashCalls ++ [u]
    cipherCalls := s.trace.cipherCalls ++ [⟨hashOf s.par u, blk⟩] }

/-- `t`, reached from `s`, with another pool and with the call and the emission that `u` and `blk` give. -/
def State.withCallOf (s : State) (u blk : Block) (m : Memory) (t : State) : State :=
  { t with pool := m, trace := s.callTrace u blk t.trace }

theorem writeAccepted_onPool (bit : Bool) (m : Memory) (s : State) :
    writeAccepted bit (s.onPool m) = (writeAccepted bit s).onPool m := by
  rw [writeAccepted_eq, writeAccepted_eq]; rfl

theorem writeAccepted_withCallOf (bit : Bool) (s : State) (u blk : Block) (m : Memory) (t : State) :
    writeAccepted bit (s.withCallOf u blk m t) = s.withCallOf u blk m (writeAccepted bit t) := by
  rw [writeAccepted_eq, writeAccepted_eq]; rfl

/-- DISCARD reads the pool only to write it. -/
theorem writeDiscarded_onPool (bit : Bool) (m : Memory) (s : State) :
    ∃ m', writeDiscarded bit (s.onPool m) = (writeDiscarded bit s).onPool m' := by
  rw [writeDiscarded_eq, writeDiscarded_eq]; exact ⟨_, rfl⟩

theorem writeDiscarded_withCallOf (bit : Bool) (s : State) (u blk : Block) (m : Memory) (t : State) :
    ∃ m', writeDiscarded bit (s.withCallOf u blk m t) = s.withCallOf u blk m' (writeDiscarded bit t) := by
  rw [writeDiscarded_eq, writeDiscarded_eq]; exact ⟨_, rfl⟩

theorem whiten_onPool (blk : Block) (m : Memory) (s : State) : whiten blk (s.onPool m) = (whiten blk s).onPool m := by
  cases hv : s.prevValid with
  | false => rw [whiten_of_unseeded hv, whiten_of_unseeded (s := s.onPool m) hv]; rfl
  | true => rw [whiten_of_seeded hv, whiten_of_seeded (s := s.onPool m) hv]; rfl

theorem unprimed_onPool (blk : Block) (m : Memory) (s : State) :
    unprimed blk (s.onPool m) = (unprimed blk s).onPool m := by
  cases hq : s.cfgPolicy with
  | false => rw [unprimed_of_drop hq, unprimed_of_drop (s := s.onPool m) hq]; rfl
  | true => rw [unprimed_of_pass hq, unprimed_of_pass (s := s.onPool m) hq]; rfl

/-- Without a key to derive ENCODE does not read the pool (R163, R167). -/
theorem encodeBlock_onPool (blk : Block) (m : Memory) {s : State} (h : s.cfgEncrypt = true → s.primed = false) :
    encodeBlock blk (s.onPool m) = (encodeBlock blk s).onPool m := by
  cases hm : s.cfgEncrypt with
  | false =>
    rw [encodeBlock_of_whitening hm, encodeBlock_of_whitening (s := s.onPool m) hm, whiten_onPool]
  | true =>
    rw [encodeBlock_of_encrypted hm, encodeBlock_of_encrypted (s := s.onPool m) hm, encrypt_of_unprimed (h hm),
      encrypt_of_unprimed (s := s.onPool m) (h hm), unprimed_onPool]

/-- The block cycle of `s` calls the cores: the block passes, the mode is encrypted and the pool is primed (R165). -/
structure State.Encrypts (s : State) : Prop where
  pass : fipsMask (s.ebuf.block s.par.B) s = 0#5
  mode : s.cfgEncrypt = true
  primed : s.primed = true

theorem blockCycle_onPool (m : Memory) {s : State} (h : ¬ s.Encrypts) : blockCycle (s.onPool m) = (blockCycle s).onPool m := by
  by_cases hmask : fipsMask (s.ebuf.block s.par.B) s = 0#5
  · have hkey : s.cfgEncrypt = true → s.primed = false := fun hm => Bool.eq_false_iff.2 fun hp => h ⟨hmask, hm, hp⟩
    have hencode := encodeBlock_onPool (s.ebuf.block s.par.B) m (s := judged s) hkey
    rw [blockCycle_pass hmask, blockCycle_pass (s := s.onPool m) hmask]
    exact congrArg clearBlock hencode
  · rw [blockCycle_fail hmask, blockCycle_fail (s := s.onPool m) hmask]
    rfl

/-- On another pool an encrypting block cycle differs in the pool image shown to the hash and what follows from it (R169). -/
theorem blockCycle_onPool_of_encrypts (m : Memory) {s : State} (h : s.Encrypts) :
    blockCycle (s.onPool m) = s.withCallOf (m.block s.par.L) (s.ebuf.block s.par.B) m (blockCycle s) := by
  obtain ⟨hmask, hm, hp⟩ := h
  rw [blockCycle_pass hmask, blockCycle_pass (s := s.onPool m) hmask, encodeBlock_of_encrypted (s := judged s) hm,
    encodeBlock_of_encrypted (s := judged (s.onPool m)) hm, encrypt_of_primed (s := judged s) hp,
    encrypt_of_primed (s := judged (s.onPool m)) hp]
  rfl

theorem blockCycle_trace_of_encrypts {s : State} (h : s.Encrypts) : (blockCycle s).trace
    = s.callTrace (s.pool.block s.par.L) (s.ebuf.block s.par.B) (blockCycle s).trace :=
  congrArg State.trace (blockCycle_onPool_of_encrypts s.pool h)

theorem blockCycle_hashCalls_of_not_encrypts {s : State} (h : ¬ s.Encrypts) :
    (blockCycle s).trace.hashCalls = s.trace.hashCalls := by
  rcases blockCycle_cases s with
    ⟨-, heq⟩ | ⟨-, -, -, heq⟩ | ⟨-, -, -, heq⟩ | ⟨hmask, hm, hp, -⟩ | ⟨-, -, -, -, heq⟩ | ⟨-, -, -, -, heq⟩
  case inr.inr.inr.inl => exact absurd ⟨hmask, hm, hp⟩ h
  all_goals simp [heq]

/-! ### Two runs of a PUSH on two pools (R67, R169) -/

/-- `t'` is what the bits that lead from `s` to `t` make of `s` on another pool: `t` on another pool, as long as no call was made;
after the call, also with the call and the emission that another pool image gives for the same block. After a block cycle at most
`n` bits have been accepted. -/
inductive State.Twin (n : Nat) (s t t' : State) : Prop
  | quiet (m : Memory) (heq : t' = t.onPool m) (hhash : t.trace.hashCalls = s.trace.hashCalls)
      (hcycle : t.trace = s.trace ∨ t.ecur ≤ n)
  | called (v v' blk : Block) (m : Memory) (hlen : v.length = s.par.L ∧ v'.length = s.par.L ∧ blk.length = s.par.B)
      (hmode : s.cfgEncrypt = true) (htrace : t.trace = s.callTrace v blk t.trace) (heq : t' = s.withCallOf v' blk m t)
      (hcycle : t.ecur ≤ n)

theorem accept_of_lt {bit : Bool} {s : State} (h : s.ecur + 1 < 8 * s.par.B) :
    accept bit s = .next (writeAccepted bit s) := by
  have hnext := accept_next bit ((ecur_lt_iff s).1 (by omega))
  rw [hnext, accept_eq_of_lt h hnext]

theorem accept_of_full {bit : Bool} {s : State} (h : s.ecur + 1 = 8 * s.par.B) :
    accept bit s = .next (blockCycle (writeAccepted bit s)) := by
  have hnext := accept_next bit ((ecur_lt_iff s).1 (by omega))
  rw [hnext, accept_eq_of_full h hnext]

section
variable {n : Nat} {s t t' u : State} {bit : Bool}

theorem State.Twin.succ (h : s.Twin n t t') : s.Twin (n + 1) t t' := by
  cases h with
  | quiet m heq hhash hcycle => exact .quiet m heq hhash (hcycle.imp_right Nat.le_succ_of_le)
  | called v v' blk m hlen hmode htrace heq hcycle =>
    exact .called v v' blk m hlen hmode htrace heq (Nat.le_succ_of_le hcycle)

theorem discard_twin (htwin : s.Twin n t t') (h : discard bit t = .next u) :
    ∃ u', discard bit t' = .next u' ∧ s.Twin n u u' := by
  have hecur := discard_ecur h
  obtain ⟨hL, rfl⟩ := discard_cases h
  cases htwin with
  | quiet m heq hhash hcycle =>
    subst heq
    obtain ⟨m', hm'⟩ := writeDiscarded_onPool bit m t
    refine ⟨_, discard_next bit hL, .quiet m' hm' ?_ ?_⟩
    · rwa [writeDiscarded_trace]
    · rwa [writeDiscarded_trace, hecur]
  | called v v' blk m hlen hmode htrace heq hcycle =>
    subst heq
    obtain ⟨m', hm'⟩ := writeDiscarded_withCallOf bit s v' blk m t
    refine ⟨_, discard_next bit hL, .called v v' blk m' hlen hmode ?_ hm' (hecur ▸ hcycle)⟩
    rwa [writeDiscarded_trace]

/-- A bit that does not fill the block. -/
theorem accept_twin_of_lt (htwin : s.Twin n t t') (hlt : t.ecur + 1 < 8 * t.par.B) :
    ∃ u', accept bit t' = .next u' ∧ s.Twin (n + 1) (writeAccepted bit t) u' := by
  have hecur := writeAccepted_ecur bit t
  cases htwin with
  | quiet m heq hhash hcycle =>
    subst heq
    refine ⟨_, accept_of_lt hlt, .quiet m (writeAccepted_onPool bit m t) ?_ ?_⟩
    · rwa [writeAccepted_trace]
    · rw [writeAccepted_trace, hecur]
      exact hcycle.imp_right Nat.succ_le_succ
  | called v v' blk m hlen hmode htrace heq hcycle =>
    subst heq
    refine ⟨_, accept_of_lt hlt, .called v v' blk m hlen hmode ?_ (writeAccepted_withCallOf bit s v' blk m t) ?_⟩
    · rwa [writeAccepted_trace]
    · rw [hecur]
      exact Nat.succ_le_succ hcycle

/-- The block cycle of a block that was filled before any output, on two pools. -/
theorem blockCycle_twin (m : Memory) (hpar : t.par = s.par) (hmode : t.cfgEncrypt = s.cfgEncrypt) (htrace : t.trace = s.trace) :
    s.Twin n (blockCycle t) (blockCycle (t.onPool m)) := by
  have hempty : (blockCycle t).ecur ≤ n := by simp
  by_cases henc : t.Encrypts
  · have hcall : t.callTrace = s.callTrace := by
      funext v blk tr
      simp only [State.callTrace, hpar, htrace]
    have heq := blockCycle_onPool_of_encrypts m henc
    rw [State.withCallOf, hcall] at heq
    refine .called _ _ _ m ⟨?_, ?_, ?_⟩ (hmode ▸ henc.mode) (hcall ▸ blockCycle_trace_of_encrypts henc) heq hempty
    all_goals rw [Memory.block_length, hpar]
  · refine .quiet m (blockCycle_onPool m henc) ?_ (.inr hempty)
    rw [blockCycle_hashCalls_of_not_encrypts henc, htrace]

/-- A block has at least eight bits, so no second block is filled. -/
theorem accept_twin (hst : s.Framed t) (hn : n < 7) (htwin : s.Twin n t t') (h : accept bit t = .next u) :
    ∃ u', accept bit t' = .next u' ∧ s.Twin (n + 1) u u' := by
  obtain ⟨hB, ⟨hlt, rfl⟩ | ⟨hfull, rfl⟩⟩ := accept_cases h
  · exact accept_twin_of_lt htwin hlt
  · cases htwin with
    | quiet m heq hhash hcycle =>
      subst heq
      have htrace : t.trace = s.trace := hcycle.resolve_right (by omega)
      refine ⟨_, accept_of_full (s := t.onPool m) hfull, ?_⟩
      rw [writeAccepted_onPool]
      refine blockCycle_twin m ?_ ?_ ?_
      · rw [writeAccepted_par, hst.par]
      · rw [writeAccepted_cfgEncrypt, hst.cfgEncrypt]
      · rw [writeAccepted_trace, htrace]
    | called v v' blk m hlen hmode htrace heq hcycle => omega

theorem pair_twin {b0 b1 : Bool} (hst : s.Framed t) (hn : n < 7) (htwin : s.Twin n t t') (h : pair b0 b1 t = .next u) :
    ∃ u', pair b0 b1 t' = .next u' ∧ s.Twin (n + 1) u u' := by
  rcases pair_cases h with ⟨hne, h⟩ | ⟨rfl, v, hfirst, hsecond⟩
  · rw [pair_of_ne hne]
    exact accept_twin hst hn htwin h
  · obtain ⟨v', hfirst', hv⟩ := discard_twin htwin hfirst
    obtain ⟨u', hsecond', hu⟩ := discard_twin hv hsecond
    exact ⟨u', by rw [pair_of_eq, hfirst', andThen_next, hsecond'], hu.succ⟩

/-- The pairs of a PUSH, before its response. -/
theorem push_twin {b : Byte} (m : Memory) (h : execPush b s = .next t) :
    ∃ u u', t = respond 0#32 false u ∧ execPush b (s.onPool m) = .next (respond 0#32 false u') ∧ s.Twin 3 u u' := by
  obtain ⟨s1, s2, s3, h1, h2, h3, rfl⟩ := push_cases h
  have hmoves1 := (Moves.refl s).pair h1
  have hmoves2 := hmoves1.pair h2
  have hstart : s.Twin 0 s (s.onPool m) := .quiet m rfl rfl (.inl rfl)
  obtain ⟨s1', h1', htwin1⟩ := pair_twin (State.Framed.refl s) (by decide) hstart h1
  obtain ⟨s2', h2', htwin2⟩ := pair_twin hmoves1.framed (by decide) htwin1 h2
  obtain ⟨s3', h3', htwin3⟩ := pair_twin hmoves2.framed (by decide) htwin2 h3
  exact ⟨s3, s3', rfl, push_next h1' h2' h3', htwin3⟩

end

/-- Settles O50: PUSH by its twin on the other pool; the other commands do not touch the pool. -/
theorem poolReachesOnlyTheHash : Obligations.PoolReachesOnlyTheHash := fun i s t m hi h => by
  cases i with
  | push b =>
    obtain ⟨u, u', rfl, hpush, htwin⟩ := push_twin m h
    cases htwin with
    | quiet m' heq hhash _ =>
      subst heq
      exact ⟨fun _ => ⟨m', hpush⟩, fun hcall => absurd hhash hcall⟩
    | called v v' blk m' hlen hmode htrace heq _ =>
      subst heq
      obtain ⟨hv, hv', hblk⟩ := hlen
      have hhash : u.trace.hashCalls = s.trace.hashCalls ++ [v] := congrArg Trace.hashCalls htrace
      refine ⟨fun hnone => ?_, fun _ => ⟨m', v, v', blk, hv, hv', hblk, congrArg Trace.out htrace, hhash,
        congrArg Trace.cipherCalls htrace, hpush⟩⟩
      rcases hnone with hwhite | hsame
      · exact absurd (hwhite.symm.trans hmode) Bool.false_ne_true
      · exact absurd (hhash.symm.trans hsame) (by simp)
  | nop arg | rd a | reserved arg =>
    obtain rfl := Host.Outcome.next.inj h
    exact ⟨fun _ => ⟨m, rfl⟩, fun hcall => absurd rfl hcall⟩
  | _ => exact absurd hi Bool.false_ne_true

end Sys2Proof.Machine
end

section
/-! NOP, RD and the reserved opcode (43_command_status.md R190 to R193): what each answers, and the registers that RD shows. -/

namespace Sys2Proof.Machine

/-! ### The three commands -/

theorem exec_nop (arg : Byte) (s : State) : exec (.nop arg) s = .next (respond 0#32 false s) := rfl

theorem exec_rd (a : Byte) (s : State) : exec (.rd a) s = .next (respond (reg a s) false s) := rfl

theorem exec_reserved (arg : Byte) (s : State) :
    exec (.reserved arg) s = .next (respond 0#32 true (raise .badCommand s)) := rfl

/-- Settles O12: NOP is its response. -/
theorem nopOnlyResponds : Obligations.NopOnlyResponds := exec_nop

/-- Settles O15: the response follows BadCommand, whose only recording write is `err_cmd` (60_exceptions.md R211). -/
theorem reservedSetsErrCmd : Obligations.ReservedSetsErrCmd := fun arg s => by
  rw [exec_reserved, raise_badCommand_eq, logEvent_eq, respond_eq]
  rfl

/-! ### The status words, bit by bit (R41, R45) -/

theorem getLsbD_setWidth_of_ge {v : Nat} (x : BitVec v) (w : Nat) {k : Nat} (h : v ≤ k) : (x.setWidth w).getLsbD k = false := by
  rw [BitVec.getLsbD_setWidth, BitVec.getLsbD_of_ge x k h, Bool.and_false]

theorem cfgWord_bits (s : State) :
    (cfgWord s).getLsbD 0 = s.cfgEncrypt ∧ (cfgWord s).getLsbD 1 = s.cfgPolicy ∧ ∀ k, 2 ≤ k → (cfgWord s).getLsbD k = false := by
  refine ⟨?_, ?_, fun _ => getLsbD_setWidth_of_ge _ 32⟩
  all_goals
    unfold cfgWord
    cases s.cfgPolicy <;> cases s.cfgEncrypt <;> rfl

/-- STATUS packs its five marks in the order in which the failure mask packs the five sub-tests. -/
theorem statusWord_eq (s : State) :
    statusWord s = (packMask s.primed s.prevValid s.lastValid s.fcValid s.errCmd).setWidth 32 := rfl

theorem statusWord_bits (s : State) :
    (statusWord s).getLsbD 0 = s.primed ∧ (statusWord s).getLsbD 1 = s.prevValid ∧ (statusWord s).getLsbD 2 = s.lastValid ∧
      (statusWord s).getLsbD 3 = s.fcValid ∧ (statusWord s).getLsbD 4 = s.errCmd ∧
      ∀ k, 5 ≤ k → (statusWord s).getLsbD k = false := by
  rw [statusWord_eq]
  refine ⟨?_, ?_, ?_, ?_, ?_, fun _ => getLsbD_setWidth_of_ge _ 32⟩
  all_goals simp [BitVec.getLsbD_setWidth, -BitVec.getLsbD_eq_getElem]

theorem cursorWord_toNat {byte : Nat} {bit : Fin 8} (h : cursorBits byte bit < 2 ^ 32) :
    (cursorWord byte bit).toNat = cursorBits byte bit := by
  rw [cursorWord, if_pos h, BitVec.toNat_ofNat, Nat.mod_eq_of_lt h]

/-! ### The registers (R47, R193) -/

/-- An address that names no register reads as 0. -/
theorem reg_of_unmapped {a : Byte} (s : State) (h : 0x0A ≤ a.toNat) : reg a s = 0#32 := by
  unfold reg
  split
  case h_11 => rfl
  all_goals omega

/-- No register shows a byte of a memory, or the carried lengths and positions (R193). -/
theorem reg_of_hidden (a : Byte) (s : State) (eb po pr : Memory) (fl fp : PerBit) :
    reg a { s with ebuf := eb, pool := po, prev := pr, fcLen := fl, fcPos := fp } = reg a s := rfl

/-- Settles O13, one clause for each register. -/
theorem rdAnswersTheRegister : Obligations.RdAnswersTheRegister := fun a s => by
  refine ⟨reg a s, exec_rd a s, ?_, ?_, ?_, ?_, ?_, ?_, ?_, ?_, ?_, ?_, reg_of_unmapped s⟩
  · rintro rfl; exact cfgWord_bits s
  · rintro rfl; exact statusWord_bits s
  · rintro rfl; exact BitVec.toNat_setWidth_of_le (by decide)
  · rintro rfl; exact BitVec.toNat_setWidth_of_le (by decide)
  · rintro rfl; exact cursorWord_toNat
  · rintro rfl; exact cursorWord_toNat
  all_goals rintro rfl; rfl

/-- Settles O14: the response is the register's value, which the hidden elements do not enter. -/
theorem rdRevealsNoBuffer : Obligations.RdRevealsNoBuffer := fun a s eb po pr fl fp =>
  ⟨⟨reg a s, false⟩, exec_rd a s, by rw [exec_rd, reg_of_hidden, respond_eq]; rfl⟩

end Sys2Proof.Machine
end

section
/-! Events and idling (60_exceptions.md R211, R212, R217, R226, R227): what raising an event writes, how many events a transaction
raises, and that ECB neither changes state while idle nor stops. -/

namespace Sys2Proof.Machine

/-! ### No stop (R227, R221) -/

section
variable {s t : State}

/-- A command that the host can present completes where the cursors are in range. -/
theorem exec_decode_completes (w : CmdWord) (hs : s.cursorsInRange) : ∃ t, exec (decode w) s = .next t := by
  rcases opField_cases w with h | h | h | h
  · exact ⟨_, by rw [decode_nop h, exec_nop]⟩
  · obtain ⟨t, ht, -⟩ := push_completes (argField w) hs
    exact ⟨t, by rw [decode_push h, exec_push, ht]⟩
  · exact ⟨_, by rw [decode_rd h, exec_rd]⟩
  · exact ⟨_, by rw [decode_reserved h, exec_reserved]⟩

theorem command_completes (w : CmdWord) (hs : s.Ready) : ∃ t, command w s = .next t := by
  rw [command_of_resetDone w hs.reset]
  exact exec_decode_completes w hs.inv.cursors

/-- Whatever the host does to a ready machine has a next state; a reset that cuts a transaction short needs the transaction to
have one. -/
theorem serve_completes (i : HostInput) (hs : s.Ready) : ∃ t, serve i s = .next t := by
  cases i with
  | cmd w => exact command_completes w hs
  | rst enc pol => exact ⟨_, rfl⟩
  | rstDuring w cut enc pol =>
    obtain ⟨u, hu⟩ := command_completes w hs
    exact ⟨_, by rw [serve, hu, andThen_next]⟩

/-- Readiness does not look at what the model keeps for itself. -/
theorem ready_own (past : List Trace) (pending : List HostInput) (draws : Nat) (hs : s.Ready) :
    State.Ready { s with past := past, pending := pending, draws := draws } :=
  ⟨hs.valid, hs.reset, hs.inv.cursors, hs.inv.memories⟩

/-- With no input pending a step is idle (R226). -/
theorem step_of_idle (hv : s.par.valid = true) (hp : s.pending = []) : step s = .next s := by
  rw [step_of_valid hv, takeInput, hp]

theorem step_completes (hs : s.Ready) : ∃ t, step s = .next t := by
  cases hp : s.pending with
  | nil => exact ⟨s, step_of_idle hs.valid hp⟩
  | cons i rest =>
    rw [step_of_valid hs.valid, takeInput_cons hp]
    exact serve_completes i (ready_own s.past rest s.draws hs)

theorem ready_of_framed (hs : s.Ready) (h : s.Framed t) (hinv : t.Inv) : t.Ready :=
  ⟨by rw [h.par, hs.valid], by rw [h.resetDone, hs.reset], hinv⟩

theorem step_ready (hs : s.Ready) (h : step s = .next t) : t.Ready :=
  step_keeps_bits State.Ready
    (fun _ past pending draws => ready_own past pending draws) ready_resetOf
    (fun _ _ _ hs => ⟨hs.valid, hs.reset, hs.inv.cursors, hs.inv.memories⟩)
    (fun _ hs => ⟨hs.valid, hs.reset, hs.inv.cursors, hs.inv.memories⟩)
    (fun _ _ _ hs h => ready_of_framed hs (framed_accept h) (accept_inv hs.inv h))
    (fun _ _ _ hs h => ready_of_framed hs (framed_discard h) (discard_inv hs.inv h)) hs h

/-- Where a property lets a step complete and is kept by it, any number of steps completes and keeps it. -/
theorem steps_complete (P : State → Prop) (hstep : ∀ s, P s → ∃ t, step s = .next t ∧ P t) (k : Nat) {s : State} (hs : P s) :
    ∃ t, steps k s = .next t ∧ P t := by
  induction k generalizing s with
  | zero => exact ⟨s, rfl, hs⟩
  | succ k ih =>
    obtain ⟨u, hu, hPu⟩ := hstep s hs
    obtain ⟨t, ht, hPt⟩ := ih hPu
    exact ⟨t, by rw [steps, hu, andThen_next, ht], hPt⟩

end

/-- Settles O60: a step from a ready state completes, and the machine stays ready. -/
theorem readyMachineNeverStops : Obligations.ReadyMachineNeverStops := fun k _ hs =>
  steps_complete State.Ready
    (fun _ hs =>
      have ⟨t, ht⟩ := step_completes hs
      ⟨t, ht, step_ready hs ht⟩)
    k hs

/-- Settles O6: an idle step answers the state it began in, so every later step is idle too. -/
theorem idleKeepsAllState : Obligations.IdleKeepsAllState := fun k s hv hp => by
  obtain ⟨t, ht, rfl⟩ := steps_complete (· = s) (fun u hu => ⟨s, by rw [hu, step_of_idle hv hp], rfl⟩) k rfl
  exact ht

/-! ### Events (R211, R212, R217) -/

/-- `sat_inc` counts up to its end and stays there (00_scope.md R15). -/
theorem satInc_toNat_eq_min (c : Word) : (satInc c).toNat = min (c.toNat + 1) (2 ^ 32 - 1) := by
  have hc := c.isLt
  rw [satInc_toNat]
  split <;> omega

/-- Settles O16, with the laws that say what `raise` writes. -/
theorem raiseMakesTheRecordingWrites : Obligations.RaiseMakesTheRecordingWrites :=
  ⟨raise_fipsFail_eq, raise_keyNotReady_eq, raise_badCommand_eq, satInc_toNat_eq_min, fun _ => rfl, rfl, rfl⟩

/-- The event log `new` has at most one entry more than `old`, and that an event of a block cycle (R217). -/
def AtMostOneBlockEvent (old new : List Event) : Prop :=
  new = old ∨ new = old ++ [.keyNotReady] ∨ ∃ mask, mask ≠ 0#5 ∧ new = old ++ [.fipsFail mask]

/-- A block that fails raises FipsFail, a block that passes unprimed in encrypted mode KeyNotReady, another one nothing. -/
theorem blockCycle_events (s : State) : AtMostOneBlockEvent s.trace.events (blockCycle s).trace.events := by
  rcases blockCycle_cases s with
    ⟨hmask, h⟩ | ⟨-, -, -, h⟩ | ⟨-, -, -, h⟩ | ⟨-, -, -, h⟩ | ⟨-, -, -, -, h⟩ | ⟨-, -, -, -, h⟩
  all_goals rw [h]
  · exact .inr (.inr ⟨_, hmask, rfl⟩)
  · exact .inl rfl
  · exact .inl rfl
  · exact .inl rfl
  · exact .inr (.inl rfl)
  · exact .inr (.inl rfl)

theorem accept_events {bit : Bool} {s t : State} (h : accept bit s = .next t) :
    AtMostOneBlockEvent s.trace.events t.trace.events := by
  obtain ⟨-, ⟨-, rfl⟩ | ⟨-, rfl⟩⟩ := accept_cases h
  · rw [writeAccepted_trace]
    exact .inl rfl
  · simpa using blockCycle_events (writeAccepted bit s)

/-- At most a block's worth of accepted bits fills the block at most once, and only the bit that fills it can raise an event. -/
theorem Moves.events {a d : Nat} {s t : State} (h : Moves a d s t) (hB : s.eByte < s.par.B) (ha : a ≤ 8 * s.par.B) :
    AtMostOneBlockEvent s.trace.events t.trace.events := by
  induction h with
  | refl => exact .inl rfl
  | @accept a d s t u bit hst h ih =>
    by_cases hfilled : 8 * s.par.B ≤ s.ecur + a
    · have hstart := (ecur_lt_iff s).2 hB
      have hroom : t.ecur + 1 < 8 * t.par.B := by
        rw [hst.ecur (accept_cases h).1, hst.framed.par, Nat.mod_eq_sub_mod hfilled, Nat.mod_eq_of_lt (by omega)]
        omega
      rw [accept_eq_of_lt hroom h, writeAccepted_trace]
      exact ih hB (by omega)
    · rw [← hst.trace_of_lt (by omega)]
      exact accept_events h
  | discard _ h ih =>
    obtain ⟨-, rfl⟩ := discard_cases h
    rw [writeDiscarded_trace]
    exact ih hB ha

theorem respond_events (d : Word) (e : Bool) (s : State) : (respond d e s).trace.events = s.trace.events := rfl

/-- A PUSH accepts at most three bits, fewer than a block has. -/
theorem push_events {b : Byte} {s t : State} (hs : s.cursorsInRange) (h : execPush b s = .next t) :
    AtMostOneBlockEvent s.trace.events t.trace.events := by
  obtain ⟨u, hmoves, rfl⟩ := push_moves h
  have hle := differingPairs_le b
  have hB := hs.1
  rw [respond_events]
  exact hmoves.events hB (by omega)

/-- Settles O48, command by command. -/
theorem atMostOneEventPerTransaction : Obligations.AtMostOneEventPerTransaction := fun w s t hs h => by
  refine ⟨fun a hw => ?_, fun a hw => ?_, fun b hw => ?_⟩
  · rcases hw with hw | hw
    all_goals
      rw [hw] at h
      obtain rfl := Host.Outcome.next.inj h
      exact respond_events _ _ s
  · rw [hw, exec_reserved] at h
    obtain rfl := Host.Outcome.next.inj h
    rw [respond_events, raise_badCommand_eq, logEvent_eq, withTrace_trace]
  · rw [hw, exec_push] at h
    exact push_events hs h

end Sys2Proof.Machine
end

section
/-! The reset pin (70_reset_and_hazards.md R240 to R244, R257): the state a reset leaves between transactions and in the middle of
one, what stays of a transaction that it cuts short (R260), and the runs that have no meaning. -/

namespace Sys2Proof.Machine

/-! ### One host input (R246) -/

section
variable {s u : State} {rest : List HostInput}

/-- A step of an instance that exists serves the first pending input. -/
theorem step_of_pending {i : HostInput} (hv : s.par.valid = true) (hp : s.pending = i :: rest) :
    step s = serve i { s with pending := rest } := by
  rw [step_of_valid hv, takeInput_cons hp]

theorem step_of_invalid (hv : ¬ s.par.valid = true) : step s = .refused .noSuchHardware := if_neg hv

theorem command_before_reset (w : CmdWord) (hr : s.resetDone = false) : command w s = .refused .beforeFirstReset :=
  if_neg (Bool.eq_false_iff.1 hr)

@[simp] theorem serve_rst (enc pol : Strap) (s : State) : serve (.rst enc pol) s = .next (pulseReset enc pol s) := rfl

/-- A reset can cut short only a transaction that would have completed. -/
theorem serve_rstDuring_of_exec {w : CmdWord} (cut : Cut) (enc pol : Strap) (hr : s.resetDone = true)
    (hu : exec (decode w) s = .next u) : serve (.rstDuring w cut enc pol) s = .next (abandon cut enc pol s u) := by
  rw [serve, command_of_resetDone w hr, hu, andThen_next]

end

/-! ### The straps (R242, R257) -/

section
variable {strap : Strap}

theorem latch_of_low (draw : Nat) (h : strap = .low) : latch strap draw = false := by rw [h, latch]

theorem latch_of_high (draw : Nat) (h : strap = .high) : latch strap draw = true := by rw [h, latch]

end

/-- Settles O3: the step serves the pulse, and each stable strap latches its level. -/
theorem resetPulseLoadsTheResetState : Obligations.ResetPulseLoadsTheResetState := by
  intro s enc pol rest hv hp
  refine ⟨latch enc s.draws, latch pol (s.draws + 1), s.draws + 2, ?_, latch_of_low _, latch_of_high _, latch_of_low _,
    latch_of_high _⟩
  rw [step_of_pending hv hp, serve_rst, pulseReset]

/-! ### A transaction cut short (R240, R260; 93_implementation_defined.md U14) -/

/-- The ended run's outputs are those of the cut transaction; all else is as after a pulse between transactions. -/
theorem abandon_eq_resetOf (cut : Cut) (enc pol : Strap) (s t : State) :
    abandon cut enc pol s t = { State.resetOf s.par (latch enc s.draws) (latch pol (s.draws + 1)) with
      past := s.past ++ [cutTrace cut s.trace t.trace], pending := s.pending, draws := s.draws + 2 } := rfl

section
variable (n k p : Nat) (old new : Trace)

/-- Cut while hashing: only the first bytes of the hash request were seen. -/
theorem cutTrace_hashing : cutTrace (.hashing n) old new =
    { old with hashCalls := old.hashCalls ++ cutHash n (newSince old.hashCalls new.hashCalls) } := rfl

/-- Cut while ciphering: the whole hash request and the first bytes of the cipher's were seen. -/
theorem cutTrace_ciphering : cutTrace (.ciphering k p) old new =
    { old with
      hashCalls := new.hashCalls
      cipherCalls := old.cipherCalls ++ cutCipher k p (newSince old.cipherCalls new.cipherCalls) } := rfl

/-- Cut while emitting: all but the response and the later output bytes is as in the whole transaction. -/
theorem cutTrace_emitting : cutTrace (.emitting n) old new =
    { new with rsps := old.rsps, out := old.out ++ (newSince old.out new.out).take n } := rfl

end

/-- Settles O4: a ready machine completes the transaction that the reset cuts, and `cutTrace` says what stays of it for each kind
of cut. -/
theorem resetMidTransactionKeepsHandedOverBytes : Obligations.ResetMidTransactionKeepsHandedOverBytes := by
  intro s w cut enc pol rest hs hp
  have hready := ready_own s.past rest s.draws hs
  obtain ⟨u, hu⟩ := exec_decode_completes w hready.inv.cursors
  refine ⟨u, latch enc s.draws, latch pol (s.draws + 1), s.draws + 2, cutTrace cut s.trace u.trace, hu, ?_, latch_of_low _,
    latch_of_high _, latch_of_low _, latch_of_high _, cutTrace_rsps .., fun n hcut => ?_, fun k p hcut => ?_, fun n hcut => ?_⟩
  · rw [step_of_pending hs.valid hp, serve_rstDuring_of_exec cut enc pol hready.reset hu, abandon_eq_resetOf]
  · rw [hcut, cutTrace_hashing]
    exact ⟨rfl, rfl, rfl, rfl⟩
  · rw [hcut, cutTrace_ciphering]
    exact ⟨rfl, rfl, rfl, rfl⟩
  · rw [hcut, cutTrace_emitting]
    exact ⟨rfl, rfl, rfl, rfl⟩

/-! ### Runs without a meaning (R244; 00_scope.md R6 to R8) -/

/-- Settles O7: the port refuses the command in the first clause, the step itself refuses the instance in the second. -/
theorem meaninglessRunsAreRefused : Obligations.MeaninglessRunsAreRefused := by
  refine ⟨fun s w rest hv hr hp => ?_, fun s hzero => step_of_invalid ?_⟩
  · rw [step_of_pending hv hp, serve_cmd]
    exact command_before_reset w hr
  · rw [Params.valid_iff]
    omega

end Sys2Proof.Machine
end
